-- ==== Sys2Proof/Word.lean ====
section
/-! DEFINITION. The one data width of the machine: registers and memory cells are unsigned bytes
(R9, R10, R21, R50). Addresses and the Program Counter are plain naturals (R10, R28). -/

namespace Sys2Proof

/-- A `u8` of R10: an unsigned value 0..255, the contents of one register or one memory cell.
`BitVec` addition, subtraction and multiplication wrap modulo 256, which is what R21 and R136 ask. -/
abbrev Byte := BitVec 8

end Sys2Proof
end

