-- ==== Sys2Proof/Config.lean ====
section
/-! DEFINITION. What is fixed when an engine is constructed: the parameters of R6. The three OPEN ones
(`MEM_SIZE`, `OPCODE_MAP`, `AND_MODE`) are the fields of `Params`; `NREG`, `XLEN` and `CELL` are in the
types (eight registers, bytes); the reset values are in `Machine/ResetValues.lean`. -/

namespace Sys2Proof

/-- `AND_MODE` of R6 and R133: what the Bitwise-AND instruction does. -/
inductive AndMode where
  /-- The reference's observed behaviour: only the Program Counter advances. -/
  | noop
  /-- The behaviour the source recommends: `x[a] <- x[a] & x[b]`. -/
  | bitwise
  deriving DecidableEq, Repr, Inhabited

/-- The `AND_MODE` of the engine that `State.reset` describes. R6 marks it OPEN with no default, so it has
no body: nothing can be proved about which of the two it is (log entry 2). -/
opaque Config.andMode : AndMode

/-- The sixteen instruction labels of R2, in the order of the table of R86: the domain of `OPCODE_MAP`. -/
inductive Opcode where
  | add | mul | and | cmp | jmp | jeq | jne | call | ret | push | pop | ldi | st | prn | pra | hlt
  deriving DecidableEq, Repr

/-- All sixteen labels (R2). -/
def Opcode.all : List Opcode :=
  [.add, .mul, .and, .cmp, .jmp, .jeq, .jne, .call, .ret, .push, .pop, .ldi, .st, .prn, .pra, .hlt]

/-- `OPCODE_MAP` of R6 and R87 as plain data: the opcode byte of each label. -/
structure OpcodeMap where
  add : Byte
  mul : Byte
  and : Byte
  cmp : Byte
  jmp : Byte
  jeq : Byte
  jne : Byte
  call : Byte
  ret : Byte
  push : Byte
  pop : Byte
  ldi : Byte
  st : Byte
  prn : Byte
  pra : Byte
  hlt : Byte
  deriving DecidableEq, Repr

/-- `OPCODE_MAP[label]`. -/
def OpcodeMap.byteOf (m : OpcodeMap) : Opcode → Byte
  | .add => m.add
  | .mul => m.mul
  | .and => m.and
  | .cmp => m.cmp
  | .jmp => m.jmp
  | .jeq => m.jeq
  | .jne => m.jne
  | .call => m.call
  | .ret => m.ret
  | .push => m.push
  | .pop => m.pop
  | .ldi => m.ldi
  | .st => m.st
  | .prn => m.prn
  | .pra => m.pra
  | .hlt => m.hlt

/-- The OPEN parameters of R6, fixed at construction. They are an argument of the model: each state carries
the parameters of its engine and no step changes them (log entry 1). -/
structure Params where
  /-- `MEM_SIZE`, written `N`: the number of memory cells (R50). -/
  memSize : Nat
  /-- `OPCODE_MAP` (R87, R88). -/
  opcodeMap : OpcodeMap
  /-- `AND_MODE` (R133). -/
  andMode : AndMode
  deriving DecidableEq, Repr

end Sys2Proof
end

