-- ==== Sys2Proof/Syntax.lean ====
section
/-! DEFINITION. The instructions: one constructor per row of the dispatch table (R86). A register operand is
the WHOLE operand byte (R84): a value of 8 or more is a legal operand byte that faults only if the handler
accesses the register it names. -/

namespace Sys2Proof

/-- The sixteen instructions of R2 with the operand bytes of their formats (R81 to R83), in encoding order. -/
inductive Instr where
  /-- `ADD Ra, Rb` (R131). -/
  | add (a b : Byte)
  /-- `MUL Ra, Rb` (R132). -/
  | mul (a b : Byte)
  /-- `AND Ra, Rb` (R133). -/
  | and (a b : Byte)
  /-- `CMP Ra, Rb` (R134). -/
  | cmp (a b : Byte)
  /-- `JMP Ra` (R150). -/
  | jmp (a : Byte)
  /-- `JEQ Ra` (R151). -/
  | jeq (a : Byte)
  /-- `JNE Ra` (R152). -/
  | jne (a : Byte)
  /-- `CALL Ra` (R153). -/
  | call (a : Byte)
  /-- `RET` (R154). -/
  | ret
  /-- `PUSH Ra` (R173). -/
  | push (a : Byte)
  /-- `POP Ra` (R174). -/
  | pop (a : Byte)
  /-- `LDI Ra, imm` (R190). -/
  | ldi (a imm : Byte)
  /-- `ST Ra, Rb`: `Ra` holds the address, `Rb` the value (R191). -/
  | st (a b : Byte)
  /-- `PRN Ra` (R192). -/
  | prn (a : Byte)
  /-- `PRA Ra` (R193). -/
  | pra (a : Byte)
  /-- `HLT` (R194). -/
  | hlt
  deriving DecidableEq, Repr

end Sys2Proof
end

