-- ==== Sys2Proof/WellFormed.lean ====
section
/-! DEFINITION. Two checks. `Params.Admitted`: the parameters lie in the ranges R6, R50 and R88 admit.
`Instr.wellFormed`: every register operand names one of the eight registers (R84, "register index, valid
0..7" of the opcode table). The second is NOT a condition for decoding or executing: by R84 and R91 an
operand byte has no illegal value at decode, and the machine runs an ill-formed instruction as the rules say
(log entry 17). -/

namespace Sys2Proof

/-- R88: "The map must be injective: sixteen distinct bytes, one per instruction". -/
abbrev OpcodeMap.Injective (m : OpcodeMap) : Prop := (Opcode.all.map m.byteOf).Nodup

/-- The admitted parameter values: `MEM_SIZE` in 1..256 (R6, R50) and an injective `OPCODE_MAP` (R88).
Both values of `AND_MODE` are admitted. -/
abbrev Params.Admitted (p : Params) : Prop :=
  1 ≤ p.memSize ∧ p.memSize ≤ 256 ∧ p.opcodeMap.Injective

/-- A register operand names register `i` when `i < 8` (R84). -/
def namesRegister (a : Byte) : Bool := decide (a.toNat < 8)

/-- The operand bytes of an instruction that are register indices (R82, R83): all of them but LDI's immediate. -/
def Instr.registerOperands : Instr → List Byte
  | .add a b => [a, b]
  | .mul a b => [a, b]
  | .and a b => [a, b]
  | .cmp a b => [a, b]
  | .jmp a => [a]
  | .jeq a => [a]
  | .jne a => [a]
  | .call a => [a]
  | .ret => []
  | .push a => [a]
  | .pop a => [a]
  | .ldi a _ => [a]
  | .st a b => [a, b]
  | .prn a => [a]
  | .pra a => [a]
  | .hlt => []

/-- Every register operand names a register; the immediate of LDI is unrestricted (R85). -/
def Instr.wellFormed (i : Instr) : Bool := i.registerOperands.all namesRegister

end Sys2Proof
end

