-- ==== Sys2Proof/Decode.lean ====
section
/-! DEFINITION. The dispatch table (R86), the default opcode assignment (R87), the decoder, total on any
bytes (R80, R89, R90, R113, R114), and the encoder written from the same table. Decoding is by table lookup
only: no bit of the opcode byte is interpreted (R88). -/

namespace Sys2Proof

/-- The default `OPCODE_MAP` of R87: the assignment of the published LS-8, which the spec supplies from general
knowledge and marks so (log entry 3). -/
def OpcodeMap.published : OpcodeMap where
  add := 0xA0
  mul := 0xA2
  and := 0xA8
  cmp := 0xA7
  jmp := 0x54
  jeq := 0x55
  jne := 0x56
  call := 0x50
  ret := 0x11
  push := 0x45
  pop := 0x46
  ldi := 0x82
  st := 0x84
  prn := 0x47
  pra := 0x48
  hlt := 0x01

/-- The column `k` of the dispatch table: how many operand bytes follow the opcode (R86). -/
def Opcode.operandCount : Opcode → Nat
  | .add => 2
  | .mul => 2
  | .and => 2
  | .cmp => 2
  | .jmp => 1
  | .jeq => 1
  | .jne => 1
  | .call => 1
  | .ret => 0
  | .push => 1
  | .pop => 1
  | .ldi => 2
  | .st => 2
  | .prn => 1
  | .pra => 1
  | .hlt => 0

/-- Looking an opcode byte up in the dispatch table; `none` is an illegal opcode (R90, R113). -/
def OpcodeMap.lookup (m : OpcodeMap) (op : Byte) : Option Opcode :=
  Opcode.all.find? (fun o => m.byteOf o == op)

/-- The instruction of a label with first operand byte `a` and second operand byte `b` (R81 to R83); an operand
the format does not have is ignored. -/
def Opcode.toInstr (o : Opcode) (a b : Byte) : Instr :=
  match o with
  | .add => .add a b
  | .mul => .mul a b
  | .and => .and a b
  | .cmp => .cmp a b
  | .jmp => .jmp a
  | .jeq => .jeq a
  | .jne => .jne a
  | .call => .call a
  | .ret => .ret
  | .push => .push a
  | .pop => .pop a
  | .ldi => .ldi a b
  | .st => .st a b
  | .prn => .prn a
  | .pra => .pra a
  | .hlt => .hlt

/-- `k` consecutive bytes from offset `start`, in ascending order; the first one that cannot be read ends it
(R114: exactly `k` operand bytes are read). -/
def readBytes {ε : Type} (read : Nat → Except ε Byte) (start : Nat) : Nat → Except ε (List Byte)
  | 0 => .ok []
  | k + 1 => do
    let b ← read start
    let bs ← readBytes read (start + 1) k
    return b :: bs

/-- The decoder over any source of bytes: read the opcode byte, look it up, read exactly `k` operand bytes
(R112 to R114, in that order). The engine reads from memory at the Program Counter; `decode` reads a list. -/
def decodeFrom {ε : Type} (m : OpcodeMap) (read : Nat → Except ε Byte) (unknown : Byte → ε) :
    Except ε Instr := do
  let op ← read 0
  match m.lookup op with
  | none => .error (unknown op)
  | some o => do
    let operands ← readBytes read 1 o.operandCount
    return o.toInstr (operands.getD 0 0) (operands.getD 1 0)

/-- Why a list of bytes does not begin with an instruction. -/
inductive DecodeError where
  /-- The opcode byte is not in the dispatch table (R90). -/
  | unknownOpcode (op : Byte)
  /-- The list ends before byte number `index` of the instruction (0 is the opcode byte). -/
  | missingByte (index : Nat)
  deriving DecidableEq, Repr

/-- Byte number `index` of a list. -/
def byteAt (bytes : List Byte) (index : Nat) : Except DecodeError Byte :=
  match bytes[index]? with
  | some b => .ok b
  | none => .error (.missingByte index)

/-- The label of an instruction (R86). -/
def Instr.opcode : Instr → Opcode
  | .add _ _ => .add
  | .mul _ _ => .mul
  | .and _ _ => .and
  | .cmp _ _ => .cmp
  | .jmp _ => .jmp
  | .jeq _ => .jeq
  | .jne _ => .jne
  | .call _ => .call
  | .ret => .ret
  | .push _ => .push
  | .pop _ => .pop
  | .ldi _ _ => .ldi
  | .st _ _ => .st
  | .prn _ => .prn
  | .pra _ => .pra
  | .hlt => .hlt

/-- The operand bytes of an instruction, in ascending address order (R80 to R83). -/
def Instr.operands : Instr → List Byte
  | .add a b => [a, b]
  | .mul a b => [a, b]
  | .and a b => [a, b]
  | .cmp a b => [a, b]
  | .jmp a => [a]
  | .jeq a => [a]
  | .jne a => [a]
  | .call a => [a]
  | .ret => []
  | .push a => [a]
  | .pop a => [a]
  | .ldi a imm => [a, imm]
  | .st a b => [a, b]
  | .prn a => [a]
  | .pra a => [a]
  | .hlt => []

/-- The length of an instruction in bytes, `1 + k` (R80). -/
def Instr.length (i : Instr) : Nat := 1 + i.opcode.operandCount

/-- The decoder on a list of bytes: the instruction it begins with and the bytes after it. -/
def decode (m : OpcodeMap) (bytes : List Byte) : Except DecodeError (Instr × List Byte) :=
  match decodeFrom m (byteAt bytes) .unknownOpcode with
  | .ok i => .ok (i, bytes.drop i.length)
  | .error e => .error e

/-- The encoder: the opcode byte, then the operand bytes at ascending addresses (R80). -/
def encode (m : OpcodeMap) (i : Instr) : List Byte := m.byteOf i.opcode :: i.operands

/-- The three bytes (the longest instruction) that the opcode table's numbering gives the word `w` of `nbits`
bits: bits 7..0 are the first byte, bits 15..8 the second, bits 23..16 the third; every bit at `nbits` or
above is 0. -/
def tableBytes (nbits w : Nat) : List Byte :=
  let v := w % 2 ^ nbits
  [BitVec.ofNat 8 v, BitVec.ofNat 8 (v / 2 ^ 8), BitVec.ofNat 8 (v / 2 ^ 16)]

/-- The instruction the decoder reads from the word `w`, numbered as spec/opcode_table.json numbers it, under the
default opcode map. -/
def decodeTableWord (nbits w : Nat) : Option Instr :=
  match decode OpcodeMap.published (tableBytes nbits w) with
  | .ok (i, _) => some i
  | .error _ => none

end Sys2Proof
end

