-- ==== Sys2Proof/Machine/ResetValues.lean ====
section
/-! DEFINITION. The values that reset gives (R6, R41), each under its own name. -/

namespace Sys2Proof.Machine

/-- The register file after reset: registers 0 to 6 are 0 (the spec's decision D12, log entry 4) and register 7,
the Stack Pointer, is `SP_RESET` = 0xF4 (R41). -/
def resetRegs : Vector Byte 8 := #v[0, 0, 0, 0, 0, 0, 0, 0xF4]

/-- `PC_RESET` of R6. -/
def resetPc : Nat := 0

/-- `LOAD_BASE` of R6: the address at which a program's first byte is placed (R261). -/
def loadBase : Nat := 0

/-- The parameters of the engine that `State.reset` describes: `MEM_SIZE` = 256 (R6, R50), the default opcode
map of R87 (log entry 3) and the `AND_MODE` that no claim can see (log entry 2). -/
def referenceParams : Params where
  memSize := 256
  opcodeMap := OpcodeMap.published
  andMode := Config.andMode

end Sys2Proof.Machine
end

