-- ==== Sys2Proof/Machine/State.lean ====
section
/-! DEFINITION. The architectural state: the seven items of R20, and beside them the parameters the engine was
constructed with (R6). Everything is plain data. -/

namespace Sys2Proof.Machine

/-- Memory: the cells that do not read as 0, by rising address (R50). A cell the list does not name reads as 0,
since memory is "zero-initialized" (R41). -/
abbrev Memory := List Host.Cell

/-- The three flags FL.E, FL.G, FL.L (R32): three booleans, no packed form (R34). -/
structure Flags where
  equal : Bool
  greater : Bool
  less : Bool
  deriving DecidableEq, Repr

/-- Which instruction emitted an output event (R195). -/
inductive OutKind where
  | prn
  | pra
  deriving DecidableEq, Repr

/-- One output event: the pair of R195. -/
structure OutEvent where
  kind : OutKind
  value : Byte
  deriving DecidableEq, Repr

/-- The kinds of fatal error with what each records (R221). -/
inductive FaultKind where
  /-- The byte fetched at `address` is not in the dispatch table (R222). -/
  | invalidOpcode (address : Nat) (byte : Byte)
  /-- An access at an address that is not below `N`, or a CALL whose return address does not fit a cell (R223). -/
  | invalidAddress (address : Nat)
  /-- A register access with an index of 8 or more (R224). -/
  | invalidRegister (index : Byte)
  /-- Listed by the source and raised by no rule (R135, R225); `tag` is the operation (log entry 16). -/
  | unsupportedAluOperation (tag : Opcode)
  deriving DecidableEq, Repr

/-- A fault record `(kind, info, at)` of R37: the kind carries its info, `pc` is the spec's `at`. -/
structure FaultRecord where
  kind : FaultKind
  pc : Nat
  deriving DecidableEq, Repr

/-- The three engine states of R39. -/
inductive EngineState where
  | stopped
  | running
  | faulted
  deriving DecidableEq, Repr

/-- Why a step is not taken (R111). A fatal error of an instruction is NOT one of these: raising it is a step,
whose next state holds the fault record (R227, log entry 6). -/
inductive Fault where
  /-- Raised by `step` in the Stopped state (R39, R111): the engine takes no step, and only the host can start it.
  Safe: the model stops where the engine does nothing. -/
  | stopped
  /-- Raised by `step` in the Faulted state (R39, R111, R232): the engine takes no further step; `record` is the
  latch, which the host reads. Safe: the model stops where the engine does nothing. -/
  | faulted (record : FaultRecord)
  deriving DecidableEq, Repr

/-- Why the model gives an instruction no meaning. -/
inductive Refusal where
  /-- Raised by `exec` for an instruction that has no meaning yet; no arm of `exec` raises it now. Safe. -/
  | notModelled (mnemonic : String)
  deriving DecidableEq, Repr

/-- The state of one engine: the seven items of R20 in its order, then the construction parameters. -/
structure State where
  /-- `mem` (R50). -/
  mem : Memory
  /-- `x[0]` .. `x[7]` (R21); 7 is the Stack Pointer (R24), 6 and 5 the inert IS and IM (R25). -/
  regs : Vector Byte 8
  /-- `FL.E`, `FL.G`, `FL.L` (R32). -/
  flags : Flags
  /-- `pc`, a natural that never wraps (R28, R30). -/
  pc : Nat
  /-- The running flag (R36). -/
  running : Bool
  /-- The fault latch (R37). -/
  fault : Option FaultRecord
  /-- The output stream, oldest event first (R195). -/
  out : List OutEvent
  /-- The model's own field: the OPEN parameters of R6, fixed at construction, changed by nothing (log entry 1). -/
  params : Params
  deriving DecidableEq, Repr

/-- The state after the Reset event, for an engine constructed with the parameters `p` (R41, R260). -/
def State.resetWith (p : Params) : State where
  mem := []
  regs := resetRegs
  flags := { equal := false, greater := false, less := false }
  pc := resetPc
  running := false
  fault := none
  out := []
  params := p

/-- The state after reset of this hardware (R41). -/
def State.reset : State := State.resetWith referenceParams

end Sys2Proof.Machine
end

