-- ==== Sys2Proof/Machine/Flags.lean ====
section
/-! DEFINITION. The one flag computation of the machine: CMP's (R134). No other instruction writes a flag (R33). -/

namespace Sys2Proof.Machine

/-- The three flags of a compare: the unsigned order of two bytes (R134). -/
def compareFlags (va vb : Byte) : Flags where
  equal := decide (va.toNat = vb.toNat)
  greater := decide (va.toNat > vb.toNat)
  less := decide (va.toNat < vb.toNat)

/-- All three flags are written together (R32). -/
def State.setFlags (s : State) (f : Flags) : State := { s with flags := f }

end Sys2Proof.Machine
end

