-- ==== Sys2Proof/Machine/Operands.lean ====
section
/-! DEFINITION. Register operands: the one home of every register access. `x[i]` and `x[i] <- v` of R11 with the
index check of R27, and `SP`, register 7 without a check (R24). -/

namespace Sys2Proof.Machine

/-- The index check of R27 on its own: PUSH, POP and CALL make it before they change anything. -/
def checkReg (a : Byte) : Except FaultKind Unit :=
  if a.toNat < 8 then .ok () else .error (.invalidRegister a)

/-- `x[a]`: the whole byte is the index; 8 or more raises `InvalidRegister(a)` (R11, R27). -/
def State.readReg (s : State) (a : Byte) : Except FaultKind Byte :=
  if h : a.toNat < 8 then .ok s.regs[a.toNat] else .error (.invalidRegister a)

/-- `x[a] <- v` (R11, R27). -/
def State.writeReg (s : State) (a v : Byte) : Except FaultKind State :=
  if h : a.toNat < 8 then .ok { s with regs := s.regs.set a.toNat v } else .error (.invalidRegister a)

/-- The two source values of a two-register instruction: `a` is read and checked first (R118). -/
def State.readRegs (s : State) (a b : Byte) : Except FaultKind (Byte × Byte) := do
  let va ← s.readReg a
  let vb ← s.readReg b
  return (va, vb)

/-- `SP`: register 7 (R24). -/
def State.sp (s : State) : Byte := s.regs[7]

/-- `SP <- v`. -/
def State.setSp (s : State) (v : Byte) : State := { s with regs := s.regs.set 7 v }

end Sys2Proof.Machine
end

