-- ==== Sys2Proof/Machine/Ops.lean ====
section
/-! DEFINITION. The shared operations: memory in its canonical form, the access primitives of R53, the Program
Counter updates, the stack mechanics of R171 and R172, output, and fault entry (R227). -/

namespace Sys2Proof.Machine

/-- What a cell that the memory list does not name reads as: memory is "zero-initialized" (R41, R50). -/
def Memory.blank : Byte := 0

/-- The contents of one cell. -/
def Memory.read : Memory → Nat → Byte
  | [], _ => Memory.blank
  | c :: rest, a => if c.1 = a then c.2 else Memory.read rest a

/-- Put a cell in its place by address. -/
def Memory.insertCell (c : Host.Cell) : Memory → Memory
  | [] => [c]
  | d :: rest => if c.1 < d.1 then c :: d :: rest else d :: Memory.insertCell c rest

/-- Change one cell: whatever the list held for the address goes, and the new value is listed unless an unlisted
cell reads as it. -/
def Memory.write (m : Memory) (a : Nat) (v : Byte) : Memory :=
  let others := m.filter (fun c => c.1 != a)
  if v = Memory.blank then others else Memory.insertCell (a, v) others

/-- Change consecutive cells from address `a` upward. -/
def Memory.writeBytes (m : Memory) (a : Nat) : List Byte → Memory
  | [] => m
  | v :: vs => Memory.writeBytes (m.write a v) (a + 1) vs

/-- The canonical form: addresses strictly rising, no entry equal to what an unlisted cell reads as. -/
abbrev Memory.wf (m : Memory) : Prop :=
  m.Pairwise (fun c d => c.1 < d.1) ∧ ∀ c ∈ m, c.2 ≠ Memory.blank

/-- `MemRead(a, 1)` of R53. -/
def State.memRead (s : State) (a : Nat) : Except FaultKind Byte :=
  if a < s.params.memSize then .ok (s.mem.read a) else .error (.invalidAddress a)

/-- `MemWrite(a, 1, v)` of R53. -/
def State.memWrite (s : State) (a : Nat) (v : Byte) : Except FaultKind State :=
  if a < s.params.memSize then .ok { s with mem := s.mem.write a v } else .error (.invalidAddress a)

/-- A handler's advance by `1 + k`, `k` being its operand count (R29, R116); exact, never reduced (R30). -/
def State.advance (s : State) (k : Nat) : State := { s with pc := s.pc + (1 + k) }

/-- A handler's absolute target: `pc <- zext(t)` (R29, R155). -/
def State.jump (s : State) (t : Byte) : State := { s with pc := t.toNat }

/-- `Emit(kind, v)` of R11 and R195. -/
def State.emit (s : State) (kind : OutKind) (v : Byte) : State :=
  { s with out := s.out ++ [{ kind := kind, value := v }] }

/-- `running <- b` (R36). -/
def State.setRunning (s : State) (b : Bool) : State := { s with running := b }

/-- The push mechanics of R171: decrement `SP` modulo 256, then store at the new `SP`. `value` is asked of the
state after the decrement, which matters only for `PUSH R7` (R177). -/
def State.push (s : State) (value : State → Except FaultKind Byte) : Except FaultKind State := do
  let s' := s.setSp (s.sp - 1)
  let v ← value s'
  s'.memWrite s'.sp.toNat v

/-- The pop mechanics of R172: read the cell at `SP`, hand the byte to the destination, then increment `SP`
modulo 256. The increment comes after the destination is written, which matters only for `POP R7` (R177). -/
def State.pop (s : State) (dest : Byte → State → Except FaultKind State) : Except FaultKind State := do
  let v ← s.memRead s.sp.toNat
  let s' ← dest v s
  return s'.setSp (s'.sp + 1)

/-- The return address of a CALL must fit one cell (R153, the spec's decision D16, log entry 11). -/
def State.returnAddress (s : State) : Except FaultKind Byte :=
  if s.pc + 2 > 255 then .error (.invalidAddress (s.pc + 2)) else .ok (BitVec.ofNat 8 (s.pc + 2))

/-- Fault entry, `raise K(info)` of R227: the latch takes the record, `pc` at the start of the step with it, and
nothing else changes (R37, R228). There is no return from it: only the Reset event leaves the Faulted state (R231). -/
def State.takeFault (s : State) (k : FaultKind) : State :=
  { s with fault := some { kind := k, pc := s.pc } }

/-- How a handler's pseudocode takes effect on the state `s` at the start of the step (R12): what it computed on a
copy is kept if nothing was raised, and otherwise discarded whole, with fault entry from `s`. -/
def State.settle (s : State) : Except FaultKind State → State
  | .ok s' => s'
  | .error k => s.takeFault k

/-- A handler's outcome: raising a fatal error is a step too, whose next state holds the record (R227). -/
def commit (s : State) (r : Except FaultKind State) : Host.Outcome State Fault Refusal := .next (s.settle r)

/-- The engine state, a function of the running flag and the latch (R39). -/
def State.engineState (s : State) : EngineState :=
  match s.fault with
  | some _ => .faulted
  | none => if s.running then .running else .stopped

end Sys2Proof.Machine
end

