-- ==== Sys2Proof/Machine/Alu.lean ====
section
/-! DEFINITION. The ALU instructions ADD, MUL, AND, CMP (R130 to R137). Both source values are read before the
destination is written (R137). -/

namespace Sys2Proof.Machine

/-- ADD (R131): `x[a] <- (x[a] + x[b]) mod 256`. -/
def execAdd (a b : Byte) (s : State) : Host.Outcome State Fault Refusal :=
  commit s (do
    let (va, vb) ← s.readRegs a b
    let s' ← s.writeReg a (va + vb)
    return s'.advance 2)

/-- MUL (R132): `x[a] <- (x[a] * x[b]) mod 256`. -/
def execMul (a b : Byte) (s : State) : Host.Outcome State Fault Refusal :=
  commit s (do
    let (va, vb) ← s.readRegs a b
    let s' ← s.writeReg a (va * vb)
    return s'.advance 2)

/-- What AND leaves in `x[a]` when both operands name registers: under `noop` the value it had (R133). -/
def andValue (mode : AndMode) (va vb : Byte) : Byte :=
  match mode with
  | .noop => va
  | .bitwise => va &&& vb

/-- AND (R133), in the mode the engine was constructed with. Under `noop` it only advances `pc`, whatever the
operand bytes are; under `bitwise` it is `x[a] <- x[a] & x[b]` with ADD's register checks. Written so that with
two valid operands it evaluates to a next state in which only `x[a]` depends on the mode. -/
def execAnd (a b : Byte) (s : State) : Host.Outcome State Fault Refusal :=
  commit s (
    match s.readRegs a b with
    | .ok (va, vb) => do
      let s' ← s.writeReg a (andValue s.params.andMode va vb)
      return s'.advance 2
    | .error k =>
      match s.params.andMode with
      | .noop => .ok (s.advance 2)
      | .bitwise => .error k)

/-- CMP (R134): all three flags from the unsigned order of `x[a]` and `x[b]`. -/
def execCmp (a b : Byte) (s : State) : Host.Outcome State Fault Refusal :=
  commit s (do
    let (va, vb) ← s.readRegs a b
    return (s.setFlags (compareFlags va vb)).advance 2)

end Sys2Proof.Machine
end

