-- ==== Sys2Proof/Machine/Control.lean ====
section
/-! DEFINITION. The control-flow instructions JMP, JEQ, JNE, CALL, RET (R150 to R155). A target is never checked at
the transfer; a bad one shows at the next fetch. -/

namespace Sys2Proof.Machine

/-- JMP (R150): `pc <- x[a]`. -/
def execJmp (a : Byte) (s : State) : Host.Outcome State Fault Refusal :=
  commit s (do
    let t ← s.readReg a
    return s.jump t)

/-- JEQ (R151): `pc <- x[a]` if FL.E, else `pc + 2` with the register file not accessed. -/
def execJeq (a : Byte) (s : State) : Host.Outcome State Fault Refusal :=
  commit s (
    if s.flags.equal then do
      let t ← s.readReg a
      return s.jump t
    else .ok (s.advance 1))

/-- JNE (R152): `pc <- x[a]` if not FL.E, else `pc + 2` with the register file not accessed. -/
def execJne (a : Byte) (s : State) : Host.Outcome State Fault Refusal :=
  commit s (
    if s.flags.equal then .ok (s.advance 1)
    else do
      let t ← s.readReg a
      return s.jump t)

/-- CALL (R153): the index check, the return-address check, the push of `pc + 2`, then `pc <- x[a]` read after the
push (R177). -/
def execCall (a : Byte) (s : State) : Host.Outcome State Fault Refusal :=
  commit s (do
    checkReg a
    let ret ← s.returnAddress
    let s' ← s.push (fun _ => .ok ret)
    let t ← s'.readReg a
    return s'.jump t)

/-- RET (R154): pop into the Program Counter. -/
def execRet (s : State) : Host.Outcome State Fault Refusal :=
  commit s (s.pop (fun v s' => .ok (s'.jump v)))

end Sys2Proof.Machine
end

