-- ==== Sys2Proof/Machine/DataIo.lean ====
section
/-! DEFINITION. Data movement, output and halt: LDI, ST, PRN, PRA, HLT (R190 to R195). -/

namespace Sys2Proof.Machine

/-- LDI (R190): `x[a] <- imm`. -/
def execLdi (a imm : Byte) (s : State) : Host.Outcome State Fault Refusal :=
  commit s (do
    let s' ← s.writeReg a imm
    return s'.advance 2)

/-- ST (R191): `mem[x[a]] <- x[b]`. -/
def execSt (a b : Byte) (s : State) : Host.Outcome State Fault Refusal :=
  commit s (do
    let (ea, v) ← s.readRegs a b
    let s' ← s.memWrite ea.toNat v
    return s'.advance 2)

/-- PRN (R192): emit `(PRN, x[a])`. -/
def execPrn (a : Byte) (s : State) : Host.Outcome State Fault Refusal :=
  commit s (do
    let v ← s.readReg a
    return (s.emit .prn v).advance 1)

/-- PRA (R193): emit `(PRA, x[a])`. -/
def execPra (a : Byte) (s : State) : Host.Outcome State Fault Refusal :=
  commit s (do
    let v ← s.readReg a
    return (s.emit .pra v).advance 1)

/-- HLT (R194): `running <- false`; `pc` stays at this HLT. -/
def execHlt (s : State) : Host.Outcome State Fault Refusal :=
  commit s (.ok (s.setRunning false))

end Sys2Proof.Machine
end

