-- ==== Sys2Proof/Machine/Stack.lean ====
section
/-! DEFINITION. The stack instructions PUSH and POP (R170 to R178): a full descending stack of single bytes whose
pointer is register 7. Nothing checks overflow, underflow or balance (R176). -/

namespace Sys2Proof.Machine

/-- PUSH (R173): the index check, then the push of `x[a]` as it reads after the decrement (R177). -/
def execPush (a : Byte) (s : State) : Host.Outcome State Fault Refusal :=
  commit s (do
    checkReg a
    let s' ← s.push (fun s' => s'.readReg a)
    return s'.advance 1)

/-- POP (R174): the index check, then the pop into `x[a]`; the increment follows the register write (R177). -/
def execPop (a : Byte) (s : State) : Host.Outcome State Fault Refusal :=
  commit s (do
    checkReg a
    let s' ← s.pop (fun v s' => s'.writeReg a v)
    return s'.advance 1)

end Sys2Proof.Machine
end

