-- ==== Sys2Proof/Machine/Fetch.lean ====
section
/-! DEFINITION. Fetch and decode from memory at the Program Counter (R112 to R114, R117), and the placing of an
instruction's bytes where the next fetch reads them. -/

namespace Sys2Proof.Machine

/-- Fetch, decode and operand fetch, in that order: `InvalidAddress(pc)`, then `InvalidOpcode(pc, op)`, then
`InvalidAddress` of the first operand byte out of range (R112 to R114, R118). Memory is read at the time of the
step, so a store is seen by the very next fetch (R65). -/
def State.fetch (s : State) : Except FaultKind Instr :=
  decodeFrom s.params.opcodeMap (fun j => s.memRead (s.pc + j)) (fun op => .invalidOpcode s.pc op)

/-- `bytes` stored from the Program Counter upward (only cells that exist), with the engine Running. -/
def State.placeAtPc (s : State) (bytes : List Byte) : State :=
  { s with
    mem := s.mem.writeBytes s.pc (bytes.take (s.params.memSize - s.pc))
    running := true
    fault := none }

end Sys2Proof.Machine
end

