-- ==== Sys2Proof/Machine/Step.lean ====
section
/-! DEFINITION. The step (R111, R117), and the host's way of placing one instruction where the step fetches. -/

namespace Sys2Proof.Machine

/-- One step, taken if and only if the engine is Running (R111): fetch, decode, operand fetch, then the handler; a
fatal error of the fetch enters the fault with nothing else changed (R117). In the Stopped and Faulted states no step
is taken, and the outcome says which of the two it is (log entry 5). -/
def step (s : State) : Host.Outcome State Fault Refusal :=
  match s.fault with
  | some record => .fault (.faulted record)
  | none =>
    if s.running then
      match s.fetch with
      | .ok i => exec i s
      | .error k => .next (s.takeFault k)
    else .fault .stopped

/-- `s` with the instruction whose bits are `w` (numbered as the opcode table numbers them) stored at the Program
Counter, and the engine Running with an empty latch, so that the next step fetches and runs it. It stands for the
host's Load and Run events (log entry 7). -/
def State.withFetchWord (s : State) (nbits w : Nat) : State := s.placeAtPc (tableBytes nbits w)

end Sys2Proof.Machine
end

