-- ==== Sys2Proof/Machine/Lifecycle.lean ====
section
/-! DEFINITION. The three host events (R8, R260 to R264). They are no steps of the engine: the host acts before a
run and after it, never during one (R272). `none` is an event that cannot occur or that the host refuses. -/

namespace Sys2Proof.Machine

/-- Reset: construct a fresh engine with the parameters `p`; nothing of an earlier engine remains (R260). -/
def hostReset (p : Params) : State := State.resetWith p

/-- Load: `bytes` placed from address 0 upward, on a Stopped engine, if they fit (R261). A longer sequence is
refused by the host, and a Load while Running or Faulted is outside the lifecycle (log entry 14). -/
def hostLoad (bytes : List Byte) (s : State) : Option State :=
  if s.engineState = .stopped ∧ bytes.length ≤ s.params.memSize then
    some { s with mem := s.mem.writeBytes loadBase bytes }
  else none

/-- Run: sets the running flag of a Stopped engine, does nothing to a Faulted one, and cannot occur on a Running one
(R262). -/
def hostRun (s : State) : Option State :=
  match s.engineState with
  | .stopped => some (s.setRunning true)
  | .faulted => some s
  | .running => none

/-- Reset, then one Load, then one Run: the only lifecycle the source endorses (R42, R263, R265). -/
def launch (p : Params) (bytes : List Byte) : Option State :=
  (hostLoad bytes (hostReset p)).bind hostRun

end Sys2Proof.Machine
end

