-- ==== Sys2Proof/Safety.lean ====
section
/-! DEFINITION. What claims about runs are stated in: the invariant of a state, and the three things a run can do
(R120, R121). -/

namespace Sys2Proof.Machine

/-- Every listed cell is one of the `N` cells (R50). -/
abbrev Memory.Within (m : Memory) (size : Nat) : Prop := ∀ c ∈ m, c.1 < size

/-- What every step keeps. Memory is canonical and inside its `N` cells; the parameters are admitted (R6, R88); the
Program Counter is at most the larger of 255 and `N`, which with `N` = 256 is inside the bound of R30 (log entry 15);
and a Faulted engine's running flag is true (R37, R39). -/
def State.Inv (s : State) : Prop :=
  s.mem.wf ∧ s.mem.Within s.params.memSize ∧ s.params.Admitted ∧ s.pc ≤ max 255 s.params.memSize ∧
    (s.fault ≠ none → s.running = true)

end Sys2Proof.Machine

namespace Sys2Proof.Safety

open Sys2Proof.Machine

/-- The state after `n` steps from `s`, if that many were taken. -/
def After (s : State) (n : Nat) (t : State) : Prop := Host.Core.run Sys2Proof.core n s = .next t

/-- The run from `s` ended successfully at its `n`th step, in the state `t` (R121). `s` is Running, as the Run event
leaves it, at least one step was taken since, and in `t` the running flag is false and the latch empty. -/
def EndsSuccessfully (s : State) (n : Nat) (t : State) : Prop :=
  s.engineState = .running ∧ 0 < n ∧ After s n t ∧ t.running = false ∧ t.fault = none

/-- The run from `s` failed at its `n`th step, leaving `t`: `s` is Running, as the Run event leaves it, and the engine is
then Faulted (R121). -/
def Fails (s : State) (n : Nat) (t : State) : Prop :=
  s.engineState = .running ∧ 0 < n ∧ After s n t ∧ t.fault ≠ none

/-- The run from `s` never ends: after any number of steps the engine is still Running (R120). -/
def RunsForever (s : State) : Prop := ∀ n, ∃ t, After s n t ∧ t.engineState = .running

/-- A safe run: no step of it raises a fatal error. -/
def Safe (s : State) : Prop := ∀ n t, ¬ Fails s n t

end Sys2Proof.Safety
end

