-- ==== Sys2Proof/Certificates/Slice0/Obligations.lean ====
section
/-! DEFINITION. The statements for the provers. Each docstring names the rule of spec/ it formalises, and says where a
clause rests on a choice that is the spec's own (a decision D<n>) or the model's (a log entry). -/

open Sys2Proof Sys2Proof.Machine Sys2Proof.Safety

/-! ## Reset, the invariant, the host events -/

/-- The state after Reset (R41, R260), for every construction parameters, and that `State.reset` is it with
`MEM_SIZE` = 256 and the default opcode map. The values of registers 0 to 6 and of the flags are the spec's own choice
(D12, D13; log entry 4); the opcode map is the spec's default from general knowledge (D4; log entry 3). -/
def Obligations.ResetState : Prop :=
  (∀ p : Params,
    (∀ a, (hostReset p).mem.read a = 0) ∧
    (∀ (r : Nat) (h : r < 7), (hostReset p).regs[r] = 0) ∧
    (hostReset p).regs[7] = 0xF4 ∧
    (hostReset p).flags = { equal := false, greater := false, less := false } ∧
    (hostReset p).pc = 0 ∧
    (hostReset p).running = false ∧
    (hostReset p).fault = none ∧
    (hostReset p).out = [] ∧
    (hostReset p).params = p) ∧
  State.reset = hostReset { memSize := 256, opcodeMap := OpcodeMap.published, andMode := Config.andMode }

/-- Every engine with admitted parameters starts in the invariant, and `State.reset` does. -/
def Obligations.ResetMeetsStateInvariant : Prop :=
  (∀ p : Params, p.Admitted → (hostReset p).Inv) ∧ State.reset.Inv

/-- HEADLINE. Every step keeps the invariant: memory stays canonical and inside its `N` cells (R50, R53), the
parameters stay admitted (R6, R88), the Program Counter stays bounded (R30), and a Faulted engine's running flag is
true (R37, R39). With `N` = 256 the bound implies R30's `pc <= N + 2` (log entry 15). -/
def Obligations.StepKeepsStateInvariant : Prop :=
  (∀ s t : State, s.Inv → step s = .next t → t.Inv) ∧
  (∀ s : State, s.Inv → s.params.memSize = 256 → s.pc ≤ s.params.memSize + 2)

/-- Load (R261): the bytes go to the cells from address 0 upward, no other cell and nothing else changes, and the
invariant is kept. A sequence longer than `N` is refused (the spec's decision D19), and so is a Load on an engine that
is not Stopped (log entry 14). -/
def Obligations.LoadPlacesProgram : Prop :=
  (∀ (bytes : List Byte) (s : State), s.engineState = .stopped → bytes.length ≤ s.params.memSize →
    ∃ t, hostLoad bytes s = some t ∧
      (∀ (i : Nat) (h : i < bytes.length), t.mem.read i = bytes[i]) ∧
      (∀ a, bytes.length ≤ a → t.mem.read a = s.mem.read a) ∧
      t = { s with mem := t.mem } ∧
      (s.Inv → t.Inv)) ∧
  (∀ (bytes : List Byte) (s : State), s.params.memSize < bytes.length → hostLoad bytes s = none) ∧
  (∀ (bytes : List Byte) (s : State), s.engineState ≠ .stopped → hostLoad bytes s = none)

/-- Run (R262): on a Stopped engine it sets the running flag and changes nothing else, on a Faulted engine it has no
effect, on a Running engine it cannot occur (the spec's decision D20). -/
def Obligations.RunStartsStoppedEngine : Prop :=
  (∀ s : State, s.engineState = .stopped →
    hostRun s = some { s with running := true } ∧ ({ s with running := true } : State).engineState = .running) ∧
  (∀ s : State, s.engineState = .faulted → hostRun s = some s) ∧
  (∀ s : State, s.engineState = .running → hostRun s = none)

/-- The launch state (R42, R265): Reset, Load, Run give the program's bytes from address 0, zero cells above it, every
other item as after Reset, and the engine Running. -/
def Obligations.LaunchState : Prop :=
  ∀ (p : Params) (bytes : List Byte), bytes.length ≤ p.memSize →
    ∃ t, launch p bytes = some t ∧
      (∀ (i : Nat) (h : i < bytes.length), t.mem.read i = bytes[i]) ∧
      (∀ a, bytes.length ≤ a → t.mem.read a = 0) ∧
      t = { hostReset p with mem := t.mem, running := true } ∧
      t.engineState = .running

/-- Running again without a Reset (R263): after the step that halts, a second Run leads back to the state before that
step, so the engine executes the same HLT again and stops after one step with nothing else changed. -/
def Obligations.RerunExecutesSameHalt : Prop :=
  ∀ s t : State, step s = .next t → t.running = false →
    ∃ u, hostRun t = some u ∧ u = s ∧ step u = .next t

/-! ## Encoding -/

/-- HEADLINE. Decoding the encoding of an instruction gives it back with the bytes after it untouched, under every
injective opcode map (R88) and for every operand byte, 8 and above included (R84). -/
def Obligations.DecodeEncodeAgree : Prop :=
  ∀ m : OpcodeMap, m.Injective → ∀ (i : Instr) (rest : List Byte), decode m (encode m i ++ rest) = .ok (i, rest)

/-- The other direction: whatever bytes decode to an instruction are its encoding (no two encodings of one
instruction, no ignored bit: R84, R85, R89). -/
def Obligations.EncodeDecodeAgree : Prop :=
  ∀ (m : OpcodeMap) (bytes : List Byte) (i : Instr) (rest : List Byte),
    decode m bytes = .ok (i, rest) → encode m i ++ rest = bytes

/-- Words written out from R87 and R95 decode to the instruction they stand for, one of each format and unit. -/
def Obligations.PublishedWordsDecode : Prop :=
  decode OpcodeMap.published [0x82#8, 0x00#8, 0x08#8] = .ok (.ldi 0 8, []) ∧
  decode OpcodeMap.published [0x47#8, 0x00#8, 0x01#8] = .ok (.prn 0, [0x01#8]) ∧
  decode OpcodeMap.published [0x01#8] = .ok (.hlt, []) ∧
  decode OpcodeMap.published [0xA0#8, 0x00#8, 0x01#8] = .ok (.add 0 1, []) ∧
  decode OpcodeMap.published [0x50#8, 0x01#8] = .ok (.call 1, []) ∧
  decode OpcodeMap.published [0x46#8, 0xFF#8] = .ok (.pop 255, []) ∧
  decodeTableWord 24 0x000284 = some (.st 2 0) ∧
  decodeTableWord 8 0x00 = none

/-- Illegal opcodes (R90): under every injective map 240 of the 256 byte values are in no row of the table, and under
the default map 0x00 is one of them. -/
def Obligations.IllegalOpcodesAre240 : Prop :=
  (∀ m : OpcodeMap, m.Injective →
    (List.range 256).countP (fun n => m.lookup (BitVec.ofNat 8 n) == none) = 240) ∧
  OpcodeMap.published.Injective ∧
  OpcodeMap.published.lookup 0x00 = none

/-- The dispatch table is configuration (R38): no step and no host event changes it (nor any other parameter), and its
content is the sixteen labels under the bytes of `OPCODE_MAP`, with the operand counts of R86. -/
def Obligations.DispatchTableImmutable : Prop :=
  (∀ s t : State, step s = .next t → t.params = s.params) ∧
  (∀ (bytes : List Byte) (s t : State), hostLoad bytes s = some t → t.params = s.params) ∧
  (∀ s t : State, hostRun s = some t → t.params = s.params) ∧
  (∀ m : OpcodeMap, m.Injective → ∀ o : Opcode, m.lookup (m.byteOf o) = some o) ∧
  (∀ (m : OpcodeMap) (op : Byte), (∀ o : Opcode, m.byteOf o ≠ op) → m.lookup op = none) ∧
  (∀ o : Opcode, o.operandCount =
    if o ∈ [Opcode.add, .mul, .and, .cmp, .ldi, .st] then 2 else if o ∈ [Opcode.ret, .hlt] then 0 else 1)

/-! ## The step -/

/-- When the cells from the Program Counter upward exist and hold bytes that decode to `i`, a step of the Running
engine is `exec i` of that same state: the loop adds nothing around the handler (R115 to R117). -/
def Obligations.StepRunsDecodedInstruction : Prop :=
  ∀ (s : State) (bytes : List Byte) (i : Instr), s.engineState = .running →
    s.pc + bytes.length ≤ s.params.memSize →
    (∀ (j : Nat) (h : j < bytes.length), s.mem.read (s.pc + j) = bytes[j]) →
    decode s.params.opcodeMap bytes = .ok (i, []) →
    step s = exec i s

/-- A step is taken if and only if the engine is Running (R111), and a Running engine always takes it (R273); the two
other states answer that there is none, and which they are (log entry 5). -/
def Obligations.StepTakenIffRunning : Prop :=
  (∀ s : State, (∃ t, step s = .next t) ↔ s.engineState = .running) ∧
  (∀ s : State, s.engineState = .stopped → step s = .fault .stopped) ∧
  (∀ (s : State) (r : FaultRecord), s.fault = some r → step s = .fault (.faulted r))

/-- Fetch (R112): with `pc >= N` the step raises `InvalidAddress(pc)` and ends with that fault. Otherwise the fetch reads
cell `pc` and takes the byte in it as the opcode: a fetched instruction has that byte as its opcode byte, a byte of no
row is the one the fetch reports, and `InvalidAddress(pc)` is not raised. -/
def Obligations.OpcodeFetch : Prop :=
  (∀ s : State, s.engineState = .running → s.params.memSize ≤ s.pc →
    step s = .next { s with fault := some { kind := .invalidAddress s.pc, pc := s.pc } }) ∧
  (∀ s : State, s.pc < s.params.memSize →
    s.memRead s.pc = .ok (s.mem.read s.pc) ∧
    (∀ i, s.fetch = .ok i → s.params.opcodeMap.byteOf i.opcode = s.mem.read s.pc) ∧
    ((∀ o, s.params.opcodeMap.byteOf o ≠ s.mem.read s.pc) → s.fetch = .error (.invalidOpcode s.pc (s.mem.read s.pc))) ∧
    s.fetch ≠ .error (.invalidAddress s.pc))

/-- Decode (R113): a byte that is in no row of the table raises `InvalidOpcode(pc, op)` whatever follows it; a byte of
the table yields its label's handler with as many operand bytes as the table gives, whatever the flags and registers
are. That exactly these operand bytes are read, and so which instructions in the last cells of memory reach their handler,
is the spec's decision D10 (R114, log entry 9). -/
def Obligations.OpcodeLookup : Prop :=
  (∀ s : State, s.engineState = .running → s.pc < s.params.memSize →
    s.params.opcodeMap.lookup (s.mem.read s.pc) = none →
    step s = .next { s with
      fault := some { kind := .invalidOpcode s.pc (s.mem.read s.pc), pc := s.pc } }) ∧
  (∀ (s : State) (o : Opcode), s.engineState = .running → s.pc + o.operandCount < s.params.memSize →
    s.params.opcodeMap.lookup (s.mem.read s.pc) = some o →
    ∃ i : Instr, i.opcode = o ∧ i.operands = (List.range o.operandCount).map (fun j => s.mem.read (s.pc + 1 + j)) ∧
      step s = exec i s)

/-- Operand fetch (R114): the first operand byte that lies at or above `N` raises `InvalidAddress` of its address,
whether or not the handler would use it; and exactly `k` operand bytes are read (the spec's decision D10, log
entry 9), so an instruction whose `1 + k` cells exist reaches its handler even in the last cells of memory. -/
def Obligations.OperandFetch : Prop :=
  (∀ (s : State) (o : Opcode) (j : Nat), s.engineState = .running →
    s.params.opcodeMap.lookup (s.mem.read s.pc) = some o →
    1 ≤ j → j ≤ o.operandCount → s.pc + j = s.params.memSize →
    step s = .next { s with fault := some { kind := .invalidAddress (s.pc + j), pc := s.pc } }) ∧
  (∀ (s : State) (o : Opcode), s.engineState = .running →
    s.params.opcodeMap.lookup (s.mem.read s.pc) = some o → s.pc + o.operandCount + 1 = s.params.memSize →
    ∃ i : Instr, i.opcode = o ∧ step s = exec i s)

/-- Faults are precise (R227, R228, the spec's decision D9): a step that raises one changes the latch and nothing
else, the latch holds the Program Counter of the failing instruction, and the engine is then Faulted; a handler alone
either leaves the latch as it was or enters a fault from the state it was given. That the step after it answers `.faulted`
with the record is the model's choice (log entry 5). -/
def Obligations.FaultsArePrecise : Prop :=
  (∀ (s t : State) (r : FaultRecord), step s = .next t → t.fault = some r →
    t = { s with fault := some r } ∧ r.pc = s.pc ∧ t.engineState = .faulted ∧ step t = .fault (.faulted r)) ∧
  (∀ (i : Instr) (s t : State), exec i s = .next t →
    t.fault = s.fault ∨ ∃ k, t = { s with fault := some { kind := k, pc := s.pc } })

/-- `UnsupportedALUOperation` is raised by no rule (R225): no step and no handler latches it. -/
def Obligations.UnsupportedAluOperationNeverRaised : Prop :=
  (∀ (s t : State) (r : FaultRecord) (tag : Opcode), step s = .next t → t.fault = some r →
    r.kind ≠ .unsupportedAluOperation tag) ∧
  (∀ (i : Instr) (s t : State) (r : FaultRecord) (tag : Opcode), s.fault = none → exec i s = .next t →
    t.fault = some r → r.kind ≠ .unsupportedAluOperation tag)

/-! ## The ALU instructions: result, completion, exceptions -/

/-- ADD (R131). -/
def Obligations.AddWrapsModulo256 : Prop :=
  (∀ (m : OpcodeMap) (a b : Byte), encode m (.add a b) = [m.add, a, b]) ∧
  (∀ (a b : Byte) (s : State) (ha : a.toNat < 8) (hb : b.toNat < 8),
    exec (.add a b) s = .next { s with
      regs := s.regs.set a.toNat (BitVec.ofNat 8 ((s.regs[a.toNat].toNat + s.regs[b.toNat].toNat) % 256))
      pc := s.pc + 3 }) ∧
  (∀ (a b : Byte) (s : State), 8 ≤ a.toNat → exec (.add a b) s = .next (s.takeFault (.invalidRegister a))) ∧
  (∀ (a b : Byte) (s : State), a.toNat < 8 → 8 ≤ b.toNat →
    exec (.add a b) s = .next (s.takeFault (.invalidRegister b)))

/-- MUL (R132). -/
def Obligations.MulWrapsModulo256 : Prop :=
  (∀ (m : OpcodeMap) (a b : Byte), encode m (.mul a b) = [m.mul, a, b]) ∧
  (∀ (a b : Byte) (s : State) (ha : a.toNat < 8) (hb : b.toNat < 8),
    exec (.mul a b) s = .next { s with
      regs := s.regs.set a.toNat (BitVec.ofNat 8 ((s.regs[a.toNat].toNat * s.regs[b.toNat].toNat) % 256))
      pc := s.pc + 3 }) ∧
  (∀ (a b : Byte) (s : State), 8 ≤ a.toNat → exec (.mul a b) s = .next (s.takeFault (.invalidRegister a))) ∧
  (∀ (a b : Byte) (s : State), a.toNat < 8 → 8 ≤ b.toNat →
    exec (.mul a b) s = .next (s.takeFault (.invalidRegister b)))

/-- AND in both modes (R133; that there are two modes, the OPEN parameter `AND_MODE`, is the spec's decision D6).
Under `noop` it completes on every operand byte and only advances `pc`; under `bitwise` bit `i` of `x[a]` becomes the
conjunction of the two bits, with the register checks. -/
def Obligations.AndByMode : Prop :=
  (∀ (m : OpcodeMap) (a b : Byte), encode m (.and a b) = [m.and, a, b]) ∧
  (∀ (a b : Byte) (s : State), s.params.andMode = .noop → exec (.and a b) s = .next { s with pc := s.pc + 3 }) ∧
  (∀ (a b : Byte) (s : State) (ha : a.toNat < 8) (hb : b.toNat < 8), s.params.andMode = .bitwise →
    ∃ v : Byte, (∀ i, v.getLsbD i = (s.regs[a.toNat].getLsbD i && s.regs[b.toNat].getLsbD i)) ∧
      exec (.and a b) s = .next { s with regs := s.regs.set a.toNat v, pc := s.pc + 3 }) ∧
  (∀ (a b : Byte) (s : State), s.params.andMode = .bitwise → 8 ≤ a.toNat →
    exec (.and a b) s = .next (s.takeFault (.invalidRegister a))) ∧
  (∀ (a b : Byte) (s : State), s.params.andMode = .bitwise → a.toNat < 8 → 8 ≤ b.toNat →
    exec (.and a b) s = .next (s.takeFault (.invalidRegister b)))

/-- CMP (R134): all three flags from the order of the two registers, exactly one of them true. That the order is the
unsigned one is the spec's own inference from R21. -/
def Obligations.CmpSetsAllFlags : Prop :=
  (∀ (m : OpcodeMap) (a b : Byte), encode m (.cmp a b) = [m.cmp, a, b]) ∧
  (∀ (a b : Byte) (s : State) (ha : a.toNat < 8) (hb : b.toNat < 8),
    ∃ f : Flags,
      (f.equal = true ↔ s.regs[a.toNat] = s.regs[b.toNat]) ∧
      (f.greater = true ↔ s.regs[a.toNat].toNat > s.regs[b.toNat].toNat) ∧
      (f.less = true ↔ s.regs[a.toNat].toNat < s.regs[b.toNat].toNat) ∧
      [f.equal, f.greater, f.less].count true = 1 ∧
      exec (.cmp a b) s = .next { s with flags := f, pc := s.pc + 3 }) ∧
  (∀ (a b : Byte) (s : State), 8 ≤ a.toNat → exec (.cmp a b) s = .next (s.takeFault (.invalidRegister a))) ∧
  (∀ (a b : Byte) (s : State), a.toNat < 8 → 8 ≤ b.toNat →
    exec (.cmp a b) s = .next (s.takeFault (.invalidRegister b)))

/-! ## The control-flow instructions -/

/-- JMP (R150): the target is the register's value, unchecked; a target at or above `N` faults at the next fetch. -/
def Obligations.JmpToRegister : Prop :=
  (∀ (m : OpcodeMap) (a : Byte), encode m (.jmp a) = [m.jmp, a]) ∧
  (∀ (a : Byte) (s : State) (ha : a.toNat < 8), exec (.jmp a) s = .next { s with pc := s.regs[a.toNat].toNat }) ∧
  (∀ (a : Byte) (s : State), 8 ≤ a.toNat → exec (.jmp a) s = .next (s.takeFault (.invalidRegister a))) ∧
  (∀ (a : Byte) (s t : State) (ha : a.toNat < 8), s.engineState = .running →
    s.params.memSize ≤ s.regs[a.toNat].toNat → exec (.jmp a) s = .next t →
    step t = .next (t.takeFault (.invalidAddress s.regs[a.toNat].toNat)))

/-- JEQ (R151): taken with FL.E, and without it an advance by 2 in which the operand byte is ignored. -/
def Obligations.JeqBranchesOnEqual : Prop :=
  (∀ (m : OpcodeMap) (a : Byte), encode m (.jeq a) = [m.jeq, a]) ∧
  (∀ (a : Byte) (s : State) (ha : a.toNat < 8), s.flags.equal = true →
    exec (.jeq a) s = .next { s with pc := s.regs[a.toNat].toNat }) ∧
  (∀ (a : Byte) (s : State), s.flags.equal = true → 8 ≤ a.toNat →
    exec (.jeq a) s = .next (s.takeFault (.invalidRegister a))) ∧
  (∀ (a : Byte) (s : State), s.flags.equal = false → exec (.jeq a) s = .next { s with pc := s.pc + 2 })

/-- JNE (R152): taken without FL.E, and with it an advance by 2 in which the operand byte is ignored. -/
def Obligations.JneBranchesOnNotEqual : Prop :=
  (∀ (m : OpcodeMap) (a : Byte), encode m (.jne a) = [m.jne, a]) ∧
  (∀ (a : Byte) (s : State) (ha : a.toNat < 8), s.flags.equal = false →
    exec (.jne a) s = .next { s with pc := s.regs[a.toNat].toNat }) ∧
  (∀ (a : Byte) (s : State), s.flags.equal = false → 8 ≤ a.toNat →
    exec (.jne a) s = .next (s.takeFault (.invalidRegister a))) ∧
  (∀ (a : Byte) (s : State), s.flags.equal = true → exec (.jne a) s = .next { s with pc := s.pc + 2 }) ∧
  (∀ (a : Byte) (s : State) (ha : a.toNat < 8),
    (exec (.jne a) s = .next { s with pc := s.pc + 2 } ∧ exec (.jeq a) s = .next { s with pc := s.regs[a.toNat].toNat }) ∨
    (exec (.jeq a) s = .next { s with pc := s.pc + 2 } ∧ exec (.jne a) s = .next { s with pc := s.regs[a.toNat].toNat }))

/-- CALL (R153): the push of `pc + 2` and the jump, the target read after the push; the exceptions in their order.
That a return address above 255 faults is the spec's decision D16 (log entry 11). -/
def Obligations.CallPushesReturnAddress : Prop :=
  (∀ (m : OpcodeMap) (a : Byte), encode m (.call a) = [m.call, a]) ∧
  (∀ (a : Byte) (s : State) (ha : a.toNat < 8), s.pc + 2 ≤ 255 → (s.sp - 1).toNat < s.params.memSize →
    exec (.call a) s = .next { s with
      regs := s.regs.set 7 (s.sp - 1)
      mem := s.mem.write (s.sp - 1).toNat (BitVec.ofNat 8 (s.pc + 2))
      pc := (s.regs.set 7 (s.sp - 1))[a.toNat].toNat }) ∧
  (∀ (a : Byte) (s : State), 8 ≤ a.toNat → exec (.call a) s = .next (s.takeFault (.invalidRegister a))) ∧
  (∀ (a : Byte) (s : State), a.toNat < 8 → 255 < s.pc + 2 →
    exec (.call a) s = .next (s.takeFault (.invalidAddress (s.pc + 2)))) ∧
  (∀ (a : Byte) (s : State), a.toNat < 8 → s.pc + 2 ≤ 255 → s.params.memSize ≤ (s.sp - 1).toNat →
    exec (.call a) s = .next (s.takeFault (.invalidAddress (s.sp - 1).toNat)))

/-- RET (R154). -/
def Obligations.RetPopsProgramCounter : Prop :=
  (∀ m : OpcodeMap, encode m .ret = [m.ret]) ∧
  (∀ s : State, s.sp.toNat < s.params.memSize →
    exec .ret s = .next { s with
      regs := s.regs.set 7 (BitVec.ofNat 8 ((s.sp.toNat + 1) % 256))
      pc := (s.mem.read s.sp.toNat).toNat }) ∧
  (∀ s : State, s.params.memSize ≤ s.sp.toNat → exec .ret s = .next (s.takeFault (.invalidAddress s.sp.toNat)))

/-! ## The stack instructions -/

/-- PUSH (R173): the value is read after the decrement, so `PUSH R7` stores the decremented pointer (the spec's
decision D15); the advance by 2 is the spec's inference from R29. -/
def Obligations.PushStoresBelowStackPointer : Prop :=
  (∀ (m : OpcodeMap) (a : Byte), encode m (.push a) = [m.push, a]) ∧
  (∀ (a : Byte) (s : State) (ha : a.toNat < 8), (s.sp - 1).toNat < s.params.memSize →
    exec (.push a) s = .next { s with
      regs := s.regs.set 7 (s.sp - 1)
      mem := s.mem.write (s.sp - 1).toNat (s.regs.set 7 (s.sp - 1))[a.toNat]
      pc := s.pc + 2 }) ∧
  (∀ (a : Byte) (s : State), 8 ≤ a.toNat → exec (.push a) s = .next (s.takeFault (.invalidRegister a))) ∧
  (∀ (a : Byte) (s : State), a.toNat < 8 → s.params.memSize ≤ (s.sp - 1).toNat →
    exec (.push a) s = .next (s.takeFault (.invalidAddress (s.sp - 1).toNat)))

/-- POP (R174): the increment follows the register write, so `POP R7` ends with the popped byte plus 1 (the spec's
decision D15); the advance by 2 is the spec's inference from R29. -/
def Obligations.PopReadsStackTop : Prop :=
  (∀ (m : OpcodeMap) (a : Byte), encode m (.pop a) = [m.pop, a]) ∧
  (∀ (a : Byte) (s : State) (ha : a.toNat < 8), s.sp.toNat < s.params.memSize →
    exec (.pop a) s = .next { s with
      regs := (s.regs.set a.toNat (s.mem.read s.sp.toNat)).set 7
        ((s.regs.set a.toNat (s.mem.read s.sp.toNat))[7] + 1)
      pc := s.pc + 2 }) ∧
  (∀ (a : Byte) (s : State), 8 ≤ a.toNat → exec (.pop a) s = .next (s.takeFault (.invalidRegister a))) ∧
  (∀ (a : Byte) (s : State), a.toNat < 8 → s.params.memSize ≤ s.sp.toNat →
    exec (.pop a) s = .next (s.takeFault (.invalidAddress s.sp.toNat)))

/-- The Stack Pointer wraps modulo 256 with no signal (R175, the spec's decision D14, log entry 12). Every PUSH and CALL
that completes decrements it so, every RET and POP that completes increments it so (`POP R7` increments the popped byte,
the spec's decision D15, log entry 13). At the wrap itself, decrementing 0x00 and incrementing 0xFF, each of them
completes with the flags, the latch, the running flag and the output unchanged; only with `N` < 256 does the push at 0x00
fault, with `InvalidAddress(255)`. -/
def Obligations.StackPointerWraps : Prop :=
  (∀ (a : Byte) (s t : State), s.fault = none → t.fault = none →
    (exec (.push a) s = .next t ∨ exec (.call a) s = .next t) → t.sp.toNat = (s.sp.toNat + 255) % 256) ∧
  (∀ (a : Byte) (s t : State), s.fault = none → t.fault = none →
    ((exec (.pop a) s = .next t ∧ a ≠ 7) ∨ exec .ret s = .next t) → t.sp.toNat = (s.sp.toNat + 1) % 256) ∧
  (∀ s t : State, s.fault = none → t.fault = none → exec (.pop 7) s = .next t →
    t.sp.toNat = ((s.mem.read s.sp.toNat).toNat + 1) % 256) ∧
  (∀ (a : Byte) (s : State), a.toNat < 8 → s.sp = 0x00 → 255 < s.params.memSize →
    (∃ t, exec (.push a) s = .next t ∧ t.sp = 0xFF ∧ t = { s with regs := t.regs, mem := t.mem, pc := t.pc }) ∧
    (s.pc + 2 ≤ 255 →
      ∃ t, exec (.call a) s = .next t ∧ t.sp = 0xFF ∧ t = { s with regs := t.regs, mem := t.mem, pc := t.pc })) ∧
  (∀ (a : Byte) (s : State), a.toNat < 8 → s.sp = 0xFF → 255 < s.params.memSize →
    (∃ t, exec (.pop a) s = .next t ∧ (a ≠ 7 → t.sp = 0x00) ∧ t = { s with regs := t.regs, pc := t.pc }) ∧
    (∃ t, exec .ret s = .next t ∧ t.sp = 0x00 ∧ t = { s with regs := t.regs, pc := t.pc })) ∧
  (∀ (a : Byte) (s : State), a.toNat < 8 → s.sp = 0x00 → s.params.memSize ≤ 255 →
    exec (.push a) s = .next (s.takeFault (.invalidAddress 255)))

/-- Register 7 as the explicit operand of PUSH, POP and CALL (the table of R177, the spec's decision D15). -/
def Obligations.RegisterSevenAsOperand : Prop :=
  (∀ (s : State) (q : Byte), q = s.sp - 1 → q.toNat < s.params.memSize →
    ∃ t, exec (.push 7) s = .next t ∧ t.sp = q ∧ t.mem.read q.toNat = q) ∧
  (∀ (s : State) (v : Byte), s.sp.toNat < s.params.memSize → v = s.mem.read s.sp.toNat →
    ∃ t, exec (.pop 7) s = .next t ∧ t.sp = v + 1) ∧
  (∀ (s : State) (q : Byte), q = s.sp - 1 → q.toNat < s.params.memSize → s.pc + 2 ≤ 255 →
    ∃ t, exec (.call 7) s = .next t ∧ t.sp = q ∧ (t.mem.read q.toNat).toNat = s.pc + 2 ∧ t.pc = q.toNat)

/-! ## Data movement, output, halt -/

/-- LDI (R190). -/
def Obligations.LdiLoadsImmediate : Prop :=
  (∀ (m : OpcodeMap) (a imm : Byte), encode m (.ldi a imm) = [m.ldi, a, imm]) ∧
  (∀ (a imm : Byte) (s : State) (ha : a.toNat < 8),
    exec (.ldi a imm) s = .next { s with regs := s.regs.set a.toNat imm, pc := s.pc + 3 }) ∧
  (∀ (a imm : Byte) (s : State), 8 ≤ a.toNat → exec (.ldi a imm) s = .next (s.takeFault (.invalidRegister a)))

/-- ST (R191): the first operand's register holds the address, the second's the value. -/
def Obligations.StStoresRegister : Prop :=
  (∀ (m : OpcodeMap) (a b : Byte), encode m (.st a b) = [m.st, a, b]) ∧
  (∀ (a b : Byte) (s : State) (ha : a.toNat < 8) (hb : b.toNat < 8), s.regs[a.toNat].toNat < s.params.memSize →
    exec (.st a b) s = .next { s with
      mem := s.mem.write s.regs[a.toNat].toNat s.regs[b.toNat]
      pc := s.pc + 3 }) ∧
  (∀ (a b : Byte) (s : State), 8 ≤ a.toNat → exec (.st a b) s = .next (s.takeFault (.invalidRegister a))) ∧
  (∀ (a b : Byte) (s : State), a.toNat < 8 → 8 ≤ b.toNat →
    exec (.st a b) s = .next (s.takeFault (.invalidRegister b))) ∧
  (∀ (a b : Byte) (s : State) (ha : a.toNat < 8), b.toNat < 8 → s.params.memSize ≤ s.regs[a.toNat].toNat →
    exec (.st a b) s = .next (s.takeFault (.invalidAddress s.regs[a.toNat].toNat)))

/-- PRN (R192), with the source's law that LDI then PRN of the same register prints the immediate. -/
def Obligations.PrnEmitsRegister : Prop :=
  (∀ (m : OpcodeMap) (a : Byte), encode m (.prn a) = [m.prn, a]) ∧
  (∀ (a : Byte) (s : State) (ha : a.toNat < 8),
    exec (.prn a) s = .next { s with
      out := s.out ++ [{ kind := .prn, value := s.regs[a.toNat] }]
      pc := s.pc + 2 }) ∧
  (∀ (a : Byte) (s : State), 8 ≤ a.toNat → exec (.prn a) s = .next (s.takeFault (.invalidRegister a))) ∧
  (∀ (a imm : Byte) (s : State), a.toNat < 8 →
    ∃ t u, exec (.ldi a imm) s = .next t ∧ exec (.prn a) t = .next u ∧
      u.out = s.out ++ [{ kind := .prn, value := imm }])

/-- PRA (R193). -/
def Obligations.PraEmitsCharacter : Prop :=
  (∀ (m : OpcodeMap) (a : Byte), encode m (.pra a) = [m.pra, a]) ∧
  (∀ (a : Byte) (s : State) (ha : a.toNat < 8),
    exec (.pra a) s = .next { s with
      out := s.out ++ [{ kind := .pra, value := s.regs[a.toNat] }]
      pc := s.pc + 2 }) ∧
  (∀ (a : Byte) (s : State), 8 ≤ a.toNat → exec (.pra a) s = .next (s.takeFault (.invalidRegister a)))

/-- HLT (R194): the running flag is cleared, `pc` stays, nothing else changes, and no step follows. That `step` of
the Stopped engine answers `.stopped` is the model's choice (log entry 5). -/
def Obligations.HltStopsEngine : Prop :=
  (∀ m : OpcodeMap, encode m .hlt = [m.hlt]) ∧
  (∀ s : State, exec .hlt s = .next { s with running := false }) ∧
  (∀ s t : State, s.fault = none → exec .hlt s = .next t → t.engineState = .stopped ∧ step t = .fault .stopped)

/-! ## What each instruction leaves unchanged -/

/-- Registers (the "registers written" column of R26): ADD, MUL, AND and LDI change at most their first operand's
register, CALL, RET and PUSH at most register 7, POP at most those two, and the other eight no register at all. -/
def Obligations.RegisterFrame : Prop :=
  (∀ (i : Instr) (a b : Byte) (s t : State), i ∈ [Instr.add a b, .mul a b, .and a b, .ldi a b] → exec i s = .next t →
    ∀ (r : Nat) (h : r < 8), r ≠ a.toNat → t.regs[r] = s.regs[r]) ∧
  (∀ (i : Instr) (a : Byte) (s t : State), i ∈ [Instr.call a, .ret, .push a] → exec i s = .next t →
    ∀ (r : Nat) (h : r < 7), t.regs[r] = s.regs[r]) ∧
  (∀ (a : Byte) (s t : State), exec (.pop a) s = .next t →
    ∀ (r : Nat) (h : r < 7), r ≠ a.toNat → t.regs[r] = s.regs[r]) ∧
  (∀ (i : Instr) (a b : Byte) (s t : State),
    i ∈ [Instr.cmp a b, .jmp a, .jeq a, .jne a, .st a b, .prn a, .pra a, .hlt] → exec i s = .next t →
    t.regs = s.regs)

/-- Flags (R33): no instruction but CMP changes any of the three. -/
def Obligations.FlagsWrittenOnlyByCmp : Prop :=
  ∀ (i : Instr) (s t : State), (∀ a b, i ≠ .cmp a b) → exec i s = .next t → t.flags = s.flags

/-- Memory, the forms that store nothing (R52, R67): every address reads as before. -/
def Obligations.MemoryUnchangedByNonStores : Prop :=
  ∀ (i : Instr) (s t : State), (∀ a b, i ≠ .st a b) → (∀ a, i ≠ .push a) → (∀ a, i ≠ .call a) → exec i s = .next t →
    ∀ addr, t.mem.read addr = s.mem.read addr

/-- Memory, the forms that store (R52): every address but the one cell stored to reads as before, the address being
`x[a]` for ST and `(SP - 1) mod 256` for PUSH and CALL; a form that faults stores nothing. -/
def Obligations.StoresTouchOneCell : Prop :=
  (∀ (a b : Byte) (s t : State) (addr : Nat), exec (.st a b) s = .next t →
    (∀ ea, s.readReg a = .ok ea → addr ≠ ea.toNat) → t.mem.read addr = s.mem.read addr) ∧
  (∀ (i : Instr) (a : Byte) (s t : State) (addr : Nat), i ∈ [Instr.push a, .call a] → exec i s = .next t →
    addr ≠ (s.sp - 1).toNat → t.mem.read addr = s.mem.read addr) ∧
  (∀ (i : Instr) (s t : State), s.fault = none → exec i s = .next t → t.fault ≠ none → t.mem = s.mem)

/-- The running flag (R36): of the instructions only HLT changes it, and no other event but Run does; no instruction
reads it. -/
def Obligations.RunningWrittenOnlyByHltAndRun : Prop :=
  (∀ (i : Instr) (s t : State), i ≠ .hlt → exec i s = .next t → t.running = s.running) ∧
  (∀ (bytes : List Byte) (s t : State), hostLoad bytes s = some t → t.running = s.running) ∧
  (∀ (i : Instr) (s t : State) (r : Bool), i ≠ .hlt → exec i s = .next t →
    exec i { s with running := r } = .next { t with running := r })

/-- The output stream (R195; its form is the spec's decision D18) is append-only: PRN and PRA append one event of their
kind, and nothing else touches it. -/
def Obligations.OutputOnlyGrows : Prop :=
  (∀ (i : Instr) (s t : State), (∀ a, i ≠ .prn a) → (∀ a, i ≠ .pra a) → exec i s = .next t → t.out = s.out) ∧
  (∀ s t : State, step s = .next t →
    t.out = s.out ∨ ∃ (kind : OutKind) (r : Nat) (h : r < 8), t.out = s.out ++ [{ kind := kind, value := s.regs[r] }]) ∧
  (∀ s t : State, step s = .next t → t.fault ≠ none → t.out = s.out)

/-- The Program Counter (R29, R155): an instruction that completes and is no transfer advances it by `1 + k`, exactly
and without wrapping; HLT leaves it; a completed transfer that is taken leaves a byte value. -/
def Obligations.ProgramCounterUpdates : Prop :=
  (∀ (i : Instr) (s t : State), i.opcode ∈ [Opcode.add, .mul, .and, .cmp, .push, .pop, .ldi, .st, .prn, .pra] →
    s.fault = none → exec i s = .next t → t.fault = none → t.pc = s.pc + 1 + i.opcode.operandCount) ∧
  (∀ s t : State, exec .hlt s = .next t → t.pc = s.pc) ∧
  (∀ (i : Instr) (s t : State), i.opcode ∈ [Opcode.jmp, .call, .ret] →
    s.fault = none → exec i s = .next t → t.fault = none → t.pc ≤ 255) ∧
  (∀ (i : Instr) (s t : State), i.opcode ∈ [Opcode.jeq, .jne] →
    s.fault = none → exec i s = .next t → t.fault = none → t.pc = s.pc + 2 ∨ t.pc ≤ 255)

/-! ## What an instruction can depend on -/

/-- The flags are read by JEQ and JNE only, and of them only FL.E (R33): changing flags nothing reads changes nothing
but the flags of the next state. -/
def Obligations.OnlyEqualFlagIsRead : Prop :=
  (∀ (i : Instr) (s t : State) (f : Flags), (∀ a, i ≠ .jeq a) → (∀ a, i ≠ .jne a) → exec i s = .next t →
    ∃ g, exec i { s with flags := f } = .next { t with flags := g }) ∧
  (∀ (i : Instr) (s t : State) (f : Flags), f.equal = s.flags.equal → exec i s = .next t →
    ∃ g, exec i { s with flags := f } = .next { t with flags := g })

/-- Registers 0 to 6 have no function of their own: an instruction that does not name the register neither writes it
nor depends on it, so another value in it has no effect beyond being there. For registers 0 to 4 the spec infers this (R23,
from R26); that registers 5 and 6 are otherwise ordinary registers is the model's reading (log entry 20). -/
def Obligations.UnnamedRegistersAreInert : Prop :=
  ∀ (i : Instr) (s t : State) (r : Nat) (h : r < 7) (v : Byte), (∀ a ∈ i.registerOperands, a.toNat ≠ r) →
    exec i s = .next t →
    t.regs[r] = s.regs[r] ∧
      exec i { s with regs := s.regs.set r v } = .next { t with regs := t.regs.set r v }

/-- Self-modifying code (R65, the spec's decision D17): a cell stored to by ST, PUSH or CALL is what the very next
fetch reads there, and a fetch depends on nothing but the cells at the Program Counter, the Program Counter and the
parameters: nothing is prefetched or cached. -/
def Obligations.StoreSeenByNextFetch : Prop :=
  (∀ (a b : Byte) (s : State) (ha : a.toNat < 8) (hb : b.toNat < 8), s.regs[a.toNat].toNat < s.params.memSize →
    ∃ t, exec (.st a b) s = .next t ∧
      ∀ addr, t.memRead addr = if addr = s.regs[a.toNat].toNat then .ok s.regs[b.toNat] else s.memRead addr) ∧
  (∀ (a : Byte) (s : State), a.toNat < 7 → (s.sp - 1).toNat < s.params.memSize →
    ∃ t, exec (.push a) s = .next t ∧
      ∀ addr, t.memRead addr = if addr = (s.sp - 1).toNat then s.readReg a else s.memRead addr) ∧
  (∀ (a : Byte) (s : State), a.toNat < 8 → s.pc + 2 ≤ 255 → (s.sp - 1).toNat < s.params.memSize →
    ∃ t, exec (.call a) s = .next t ∧
      ∀ addr, t.memRead addr =
        if addr = (s.sp - 1).toNat then .ok (BitVec.ofNat 8 (s.pc + 2)) else s.memRead addr) ∧
  (∀ s t : State, s.pc = t.pc → s.params = t.params →
    (∀ j, j ≤ 2 → s.mem.read (s.pc + j) = t.mem.read (s.pc + j)) → s.fetch = t.fetch)

/-- With `N` = 256 no data access can raise `InvalidAddress` (R59): a handler that raises it is CALL's, for its return
address. -/
def Obligations.DataAddressesAlwaysValidAt256 : Prop :=
  ∀ (i : Instr) (s t : State) (address pc : Nat), s.params.memSize = 256 → s.fault = none → exec i s = .next t →
    t.fault = some { kind := .invalidAddress address, pc := pc } →
    (∃ a, i = .call a) ∧ address = s.pc + 2 ∧ 255 < address

/-- `InvalidRegister` (R224; that the check is on access is the spec's decision D8, log entry 10): a handler that raises
it names one of its own register operands, an index of 8 or more, so a well-formed instruction never raises it. -/
def Obligations.InvalidRegisterNamesAnOperand : Prop :=
  (∀ (i : Instr) (s t : State) (x : Byte) (pc : Nat), s.fault = none → exec i s = .next t →
    t.fault = some { kind := .invalidRegister x, pc := pc } → x ∈ i.registerOperands ∧ 8 ≤ x.toNat) ∧
  (∀ (i : Instr) (s t : State) (x : Byte) (pc : Nat), i.wellFormed = true → s.fault = none → exec i s = .next t →
    t.fault ≠ some { kind := .invalidRegister x, pc := pc })

/-! ## Laws of two instructions -/

/-- Call and return (R157): a RET that finds the Stack Pointer and the cell as a CALL left them returns to the address
after the 2-byte CALL with the Stack Pointer as it was before the CALL. -/
def Obligations.CallReturnLaw : Prop :=
  ∀ (a : Byte) (s t u : State), s.fault = none → exec (.call a) s = .next t → t.fault = none →
    u.params = s.params → u.sp = s.sp - 1 → u.mem.read (s.sp - 1).toNat = t.mem.read (s.sp - 1).toNat →
    ∃ v, exec .ret u = .next v ∧ v.pc = s.pc + 2 ∧ v.sp = s.sp ∧ v.fault = u.fault

/-- Push and pop (R178): `PUSH Ra` then `POP Rb`, neither operand register 7, moves `x[a]` to `x[b]`, leaves the Stack
Pointer where it was, changes one cell, and advances `pc` by 4. -/
def Obligations.PushPopLaw : Prop :=
  ∀ (a b : Byte) (s : State) (ha : a.toNat < 7) (hb : b.toNat < 7), (s.sp - 1).toNat < s.params.memSize →
    ∃ t u, exec (.push a) s = .next t ∧ exec (.pop b) t = .next u ∧
      u.regs[b.toNat] = s.regs[a.toNat] ∧ u.sp = s.sp ∧
      (∀ (r : Nat) (h : r < 8), r ≠ b.toNat → u.regs[r] = s.regs[r]) ∧
      u.mem.read (s.sp - 1).toNat = s.regs[a.toNat] ∧
      (∀ addr, addr ≠ (s.sp - 1).toNat → u.mem.read addr = s.mem.read addr) ∧
      u.pc = s.pc + 4

/-- Compare and branch (R158): in any later state with the same FL.E, JEQ branches if and only if the registers were
equal at compare time, and JNE is its exact complement. -/
def Obligations.CompareBranchLaw : Prop :=
  ∀ (a b r : Byte) (s t u : State) (ha : a.toNat < 8) (hb : b.toNat < 8) (hr : r.toNat < 8),
    exec (.cmp a b) s = .next t → u.flags.equal = t.flags.equal →
    exec (.jeq r) u = .next { u with
      pc := if s.regs[a.toNat] = s.regs[b.toNat] then u.regs[r.toNat].toNat else u.pc + 2 } ∧
    exec (.jne r) u = .next { u with
      pc := if s.regs[a.toNat] = s.regs[b.toNat] then u.pc + 2 else u.regs[r.toNat].toNat }

/-! ## Runs -/

/-- The step that ends a run is an HLT (R121): `pc` is its address, its opcode byte is there, and the running flag is
all that changed. -/
def Obligations.OnlyHaltEndsRun : Prop :=
  ∀ s t : State, step s = .next t → t.running = false →
    s.pc < s.params.memSize ∧ s.params.opcodeMap.lookup (s.mem.read s.pc) = some .hlt ∧
      t = { s with running := false } ∧ t.engineState = .stopped

/-- The run (R120): from a Running engine exactly one of three things happens: it halts, it faults, or it
runs for ever. A run that halts does so at one moment, with the running flag true before it and no step after it. -/
def Obligations.RunHaltsFaultsOrRunsForever : Prop :=
  (∀ s : State, s.engineState = .running →
    ((∃ n t, EndsSuccessfully s n t) ∨ (∃ n t, Fails s n t) ∨ RunsForever s) ∧
    ((∃ n t, EndsSuccessfully s n t) → Safe s ∧ ¬ RunsForever s) ∧
    (RunsForever s → Safe s)) ∧
  (∀ (s t : State) (n : Nat), s.engineState = .running → EndsSuccessfully s n t →
    (∀ k, k < n → ∃ u, After s k u ∧ u.engineState = .running) ∧
    (∀ k u, n < k → ¬ After s k u))

/-- The end of a run, in full (R121): a run ends, either way, only after at least one step from a Running state. The last
step of a successful end was an HLT: `pc` is its address and the running flag is all that it changed. A failed run is left
in the state before the failing step plus the fault record, and no run both fails and ends successfully. -/
def Obligations.EndedRunsAreHaltsOrFaults : Prop :=
  (∀ (s t : State) (n : Nat), EndsSuccessfully s n t →
    ∃ k u, n = k + 1 ∧ After s k u ∧ u.engineState = .running ∧
      t.pc < t.params.memSize ∧ t.params.opcodeMap.lookup (t.mem.read t.pc) = some .hlt ∧
      t = { u with running := false }) ∧
  (∀ (s t : State) (n : Nat), Fails s n t →
    ∃ k u r, n = k + 1 ∧ After s k u ∧ u.engineState = .running ∧ r.pc = u.pc ∧ t = { u with fault := some r }) ∧
  (∀ (s t u : State) (n m : Nat), EndsSuccessfully s n t → ¬ Fails s m u)
end

