-- ==== Sys2Proof/Laws/State.lean ====
section
/-! SUPPORT. One lemma per field of State per named update, true by `rfl`: a proof reads a field of an updated state
without unfolding the update. -/

namespace Sys2Proof.Machine

variable (s : State)

@[simp] theorem State.setSp_mem (v : Byte) : (s.setSp v).mem = s.mem := rfl
@[simp] theorem State.setSp_regs (v : Byte) : (s.setSp v).regs = s.regs.set 7 v := rfl
@[simp] theorem State.setSp_flags (v : Byte) : (s.setSp v).flags = s.flags := rfl
@[simp] theorem State.setSp_pc (v : Byte) : (s.setSp v).pc = s.pc := rfl
@[simp] theorem State.setSp_running (v : Byte) : (s.setSp v).running = s.running := rfl
@[simp] theorem State.setSp_fault (v : Byte) : (s.setSp v).fault = s.fault := rfl
@[simp] theorem State.setSp_out (v : Byte) : (s.setSp v).out = s.out := rfl
@[simp] theorem State.setSp_params (v : Byte) : (s.setSp v).params = s.params := rfl

@[simp] theorem State.setFlags_mem (f : Flags) : (s.setFlags f).mem = s.mem := rfl
@[simp] theorem State.setFlags_regs (f : Flags) : (s.setFlags f).regs = s.regs := rfl
@[simp] theorem State.setFlags_flags (f : Flags) : (s.setFlags f).flags = f := rfl
@[simp] theorem State.setFlags_pc (f : Flags) : (s.setFlags f).pc = s.pc := rfl
@[simp] theorem State.setFlags_running (f : Flags) : (s.setFlags f).running = s.running := rfl
@[simp] theorem State.setFlags_fault (f : Flags) : (s.setFlags f).fault = s.fault := rfl
@[simp] theorem State.setFlags_out (f : Flags) : (s.setFlags f).out = s.out := rfl
@[simp] theorem State.setFlags_params (f : Flags) : (s.setFlags f).params = s.params := rfl

@[simp] theorem State.advance_mem (k : Nat) : (s.advance k).mem = s.mem := rfl
@[simp] theorem State.advance_regs (k : Nat) : (s.advance k).regs = s.regs := rfl
@[simp] theorem State.advance_flags (k : Nat) : (s.advance k).flags = s.flags := rfl
@[simp] theorem State.advance_pc (k : Nat) : (s.advance k).pc = s.pc + (1 + k) := rfl
@[simp] theorem State.advance_running (k : Nat) : (s.advance k).running = s.running := rfl
@[simp] theorem State.advance_fault (k : Nat) : (s.advance k).fault = s.fault := rfl
@[simp] theorem State.advance_out (k : Nat) : (s.advance k).out = s.out := rfl
@[simp] theorem State.advance_params (k : Nat) : (s.advance k).params = s.params := rfl

@[simp] theorem State.jump_mem (t : Byte) : (s.jump t).mem = s.mem := rfl
@[simp] theorem State.jump_regs (t : Byte) : (s.jump t).regs = s.regs := rfl
@[simp] theorem State.jump_flags (t : Byte) : (s.jump t).flags = s.flags := rfl
@[simp] theorem State.jump_pc (t : Byte) : (s.jump t).pc = t.toNat := rfl
@[simp] theorem State.jump_running (t : Byte) : (s.jump t).running = s.running := rfl
@[simp] theorem State.jump_fault (t : Byte) : (s.jump t).fault = s.fault := rfl
@[simp] theorem State.jump_out (t : Byte) : (s.jump t).out = s.out := rfl
@[simp] theorem State.jump_params (t : Byte) : (s.jump t).params = s.params := rfl

@[simp] theorem State.emit_mem (kind : OutKind) (v : Byte) : (s.emit kind v).mem = s.mem := rfl
@[simp] theorem State.emit_regs (kind : OutKind) (v : Byte) : (s.emit kind v).regs = s.regs := rfl
@[simp] theorem State.emit_flags (kind : OutKind) (v : Byte) : (s.emit kind v).flags = s.flags := rfl
@[simp] theorem State.emit_pc (kind : OutKind) (v : Byte) : (s.emit kind v).pc = s.pc := rfl
@[simp] theorem State.emit_running (kind : OutKind) (v : Byte) : (s.emit kind v).running = s.running := rfl
@[simp] theorem State.emit_fault (kind : OutKind) (v : Byte) : (s.emit kind v).fault = s.fault := rfl
@[simp] theorem State.emit_out (kind : OutKind) (v : Byte) : (s.emit kind v).out = s.out ++ [{ kind := kind, value := v }] := rfl
@[simp] theorem State.emit_params (kind : OutKind) (v : Byte) : (s.emit kind v).params = s.params := rfl

@[simp] theorem State.setRunning_mem (b : Bool) : (s.setRunning b).mem = s.mem := rfl
@[simp] theorem State.setRunning_regs (b : Bool) : (s.setRunning b).regs = s.regs := rfl
@[simp] theorem State.setRunning_flags (b : Bool) : (s.setRunning b).flags = s.flags := rfl
@[simp] theorem State.setRunning_pc (b : Bool) : (s.setRunning b).pc = s.pc := rfl
@[simp] theorem State.setRunning_running (b : Bool) : (s.setRunning b).running = b := rfl
@[simp] theorem State.setRunning_fault (b : Bool) : (s.setRunning b).fault = s.fault := rfl
@[simp] theorem State.setRunning_out (b : Bool) : (s.setRunning b).out = s.out := rfl
@[simp] theorem State.setRunning_params (b : Bool) : (s.setRunning b).params = s.params := rfl

@[simp] theorem State.takeFault_mem (k : FaultKind) : (s.takeFault k).mem = s.mem := rfl
@[simp] theorem State.takeFault_regs (k : FaultKind) : (s.takeFault k).regs = s.regs := rfl
@[simp] theorem State.takeFault_flags (k : FaultKind) : (s.takeFault k).flags = s.flags := rfl
@[simp] theorem State.takeFault_pc (k : FaultKind) : (s.takeFault k).pc = s.pc := rfl
@[simp] theorem State.takeFault_running (k : FaultKind) : (s.takeFault k).running = s.running := rfl
@[simp] theorem State.takeFault_fault (k : FaultKind) : (s.takeFault k).fault = some { kind := k, pc := s.pc } := rfl
@[simp] theorem State.takeFault_out (k : FaultKind) : (s.takeFault k).out = s.out := rfl
@[simp] theorem State.takeFault_params (k : FaultKind) : (s.takeFault k).params = s.params := rfl

@[simp] theorem State.setSp_sp (v : Byte) : (s.setSp v).sp = v := by
  simp [State.sp, State.setSp]

@[simp] theorem State.resetWith_mem (p : Params) : (State.resetWith p).mem = [] := rfl
@[simp] theorem State.resetWith_regs (p : Params) : (State.resetWith p).regs = resetRegs := rfl
@[simp] theorem State.resetWith_pc (p : Params) : (State.resetWith p).pc = resetPc := rfl
@[simp] theorem State.resetWith_running (p : Params) : (State.resetWith p).running = false := rfl
@[simp] theorem State.resetWith_fault (p : Params) : (State.resetWith p).fault = none := rfl
@[simp] theorem State.resetWith_out (p : Params) : (State.resetWith p).out = [] := rfl
@[simp] theorem State.resetWith_params (p : Params) : (State.resetWith p).params = p := rfl

/-- The register file after a register write: the register written (R27). -/
theorem State.regs_set_same (a : Byte) (v : Byte) (h : a.toNat < 8) : (s.regs.set a.toNat v)[a.toNat] = v := by
  simp

/-- The register file after a register write: every other register (R22: no register aliases another). -/
theorem State.regs_set_other (a : Byte) (v : Byte) (h : a.toNat < 8) (r : Nat) (hr : r < 8) (hne : r ≠ a.toNat) :
    (s.regs.set a.toNat v)[r] = s.regs[r] := by
  rw [Vector.getElem_set_ne]
  exact fun h' => hne h'.symm

/-- The engine states by the running flag and the latch (R39). -/
theorem State.engineState_eq_running : s.engineState = .running ↔ s.fault = none ∧ s.running = true := by
  unfold State.engineState
  cases s.fault <;> cases s.running <;> simp

theorem State.engineState_eq_stopped : s.engineState = .stopped ↔ s.fault = none ∧ s.running = false := by
  unfold State.engineState
  cases s.fault <;> cases s.running <;> simp

theorem State.engineState_eq_faulted : s.engineState = .faulted ↔ ∃ r, s.fault = some r := by
  unfold State.engineState
  cases s.fault <;> cases s.running <;> simp

end Sys2Proof.Machine
end

