-- ==== Sys2Proof/Laws/Ops.lean ====
section
/-! SUPPORT. One lemma per shared operation, saying once everything it can do. Provers cite these and unfold none of
the operations. -/

namespace Sys2Proof.Machine

variable (s : State)

/-! ## `Except`, the computation of a handler -/

@[simp] theorem except_bind_ok {ε α β : Type} (x : α) (f : α → Except ε β) :
    ((Except.ok x : Except ε α) >>= f) = f x := rfl

@[simp] theorem except_bind_error {ε α β : Type} (e : ε) (f : α → Except ε β) :
    ((Except.error e : Except ε α) >>= f) = .error e := rfl

@[simp] theorem except_pure {ε α : Type} (x : α) : (pure x : Except ε α) = .ok x := rfl

/-- If a sequence succeeds, so does each part. -/
theorem except_bind_eq_ok {ε α β : Type} {x : Except ε α} {f : α → Except ε β} {b : β}
    (h : x >>= f = .ok b) : ∃ a, x = .ok a ∧ f a = .ok b := by
  cases x with
  | error e => cases h
  | ok a => exact ⟨a, rfl, h⟩

/-- If a sequence fails, the first part failed, or it succeeded and the rest failed. -/
theorem except_bind_eq_error {ε α β : Type} {x : Except ε α} {f : α → Except ε β} {e : ε}
    (h : x >>= f = .error e) : x = .error e ∨ ∃ a, x = .ok a ∧ f a = .error e := by
  cases x with
  | error e' => exact .inl (by cases h; rfl)
  | ok a => exact .inr ⟨a, rfl, h⟩

/-! ## Register operands (R27) -/

theorem checkReg_of_lt {a : Byte} (h : a.toNat < 8) : checkReg a = .ok () := if_pos h

theorem checkReg_of_ge {a : Byte} (h : 8 ≤ a.toNat) : checkReg a = .error (.invalidRegister a) :=
  if_neg (Nat.not_lt.2 h)

theorem State.readReg_of_lt {a : Byte} (h : a.toNat < 8) : s.readReg a = .ok s.regs[a.toNat] := dif_pos h

theorem State.readReg_of_ge {a : Byte} (h : 8 ≤ a.toNat) : s.readReg a = .error (.invalidRegister a) :=
  dif_neg (Nat.not_lt.2 h)

theorem State.writeReg_of_lt {a : Byte} (v : Byte) (h : a.toNat < 8) :
    s.writeReg a v = .ok { s with regs := s.regs.set a.toNat v } := dif_pos h

theorem State.writeReg_of_ge {a : Byte} (v : Byte) (h : 8 ≤ a.toNat) :
    s.writeReg a v = .error (.invalidRegister a) := dif_neg (Nat.not_lt.2 h)

theorem State.readRegs_of_lt {a b : Byte} (ha : a.toNat < 8) (hb : b.toNat < 8) :
    s.readRegs a b = .ok (s.regs[a.toNat], s.regs[b.toNat]) := by
  simp [State.readRegs, s.readReg_of_lt ha, s.readReg_of_lt hb]

theorem State.readRegs_of_ge_left {a b : Byte} (ha : 8 ≤ a.toNat) :
    s.readRegs a b = .error (.invalidRegister a) := by
  simp [State.readRegs, s.readReg_of_ge ha]

theorem State.readRegs_of_ge_right {a b : Byte} (ha : a.toNat < 8) (hb : 8 ≤ b.toNat) :
    s.readRegs a b = .error (.invalidRegister b) := by
  simp [State.readRegs, s.readReg_of_lt ha, s.readReg_of_ge hb]

/-! ## Memory accesses (R53) -/

theorem State.memRead_of_lt {a : Nat} (h : a < s.params.memSize) : s.memRead a = .ok (s.mem.read a) := if_pos h

theorem State.memRead_of_ge {a : Nat} (h : s.params.memSize ≤ a) : s.memRead a = .error (.invalidAddress a) :=
  if_neg (Nat.not_lt.2 h)

theorem State.memWrite_of_lt {a : Nat} (v : Byte) (h : a < s.params.memSize) :
    s.memWrite a v = .ok { s with mem := s.mem.write a v } := if_pos h

theorem State.memWrite_of_ge {a : Nat} (v : Byte) (h : s.params.memSize ≤ a) :
    s.memWrite a v = .error (.invalidAddress a) := if_neg (Nat.not_lt.2 h)

/-! ## The stack (R171, R172) and CALL's return address (R153) -/

theorem State.push_eq (value : State → Except FaultKind Byte) :
    s.push value =
      (value (s.setSp (s.sp - 1)) >>= fun v => (s.setSp (s.sp - 1)).memWrite (s.sp - 1).toNat v) := by
  simp only [State.push, State.setSp_sp]

/-- A push that has a value and room stores it at the decremented Stack Pointer. -/
theorem State.push_of_ok {value : State → Except FaultKind Byte} {v : Byte}
    (hv : value (s.setSp (s.sp - 1)) = .ok v) (h : (s.sp - 1).toNat < s.params.memSize) :
    s.push value = .ok { s with regs := s.regs.set 7 (s.sp - 1), mem := s.mem.write (s.sp - 1).toNat v } := by
  rw [s.push_eq, hv, except_bind_ok]
  exact State.memWrite_of_lt _ v h

/-- A push whose cell does not exist raises `InvalidAddress` of that cell. -/
theorem State.push_of_ge {value : State → Except FaultKind Byte} {v : Byte}
    (hv : value (s.setSp (s.sp - 1)) = .ok v) (h : s.params.memSize ≤ (s.sp - 1).toNat) :
    s.push value = .error (.invalidAddress (s.sp - 1).toNat) := by
  rw [s.push_eq, hv, except_bind_ok]
  exact State.memWrite_of_ge _ v h

/-- A push whose value cannot be had raises what that raised. -/
theorem State.push_of_error {value : State → Except FaultKind Byte} {k : FaultKind}
    (hv : value (s.setSp (s.sp - 1)) = .error k) : s.push value = .error k := by
  rw [s.push_eq, hv, except_bind_error]

/-- A pop whose cell exists hands it to the destination, then increments the Stack Pointer. -/
theorem State.pop_of_lt (dest : Byte → State → Except FaultKind State) (h : s.sp.toNat < s.params.memSize) :
    s.pop dest = (dest (s.mem.read s.sp.toNat) s >>= fun s' => .ok (s'.setSp (s'.sp + 1))) := by
  simp [State.pop, State.memRead_of_lt, h]

/-- A pop whose cell does not exist raises `InvalidAddress` of it. -/
theorem State.pop_of_ge (dest : Byte → State → Except FaultKind State) (h : s.params.memSize ≤ s.sp.toNat) :
    s.pop dest = .error (.invalidAddress s.sp.toNat) := by
  simp [State.pop, State.memRead_of_ge, h]

theorem State.returnAddress_of_le (h : s.pc + 2 ≤ 255) : s.returnAddress = .ok (BitVec.ofNat 8 (s.pc + 2)) :=
  if_neg (Nat.not_lt.2 h)

theorem State.returnAddress_of_gt (h : 255 < s.pc + 2) : s.returnAddress = .error (.invalidAddress (s.pc + 2)) :=
  if_pos h

/-! ## Committing a handler (R12, R228) -/

@[simp] theorem commit_ok (t : State) : commit s (.ok t) = .next t := rfl

@[simp] theorem commit_error (k : FaultKind) : commit s (.error k) = .next (s.takeFault k) := rfl

/-- A committed handler either kept what it computed or entered the fault from the state at its start. -/
theorem commit_cases {r : Except FaultKind State} {t : State} (h : commit s r = .next t) :
    r = .ok t ∨ ∃ k, r = .error k ∧ t = s.takeFault k := by
  cases r with
  | ok u => exact .inl (by cases h; rfl)
  | error k => exact .inr ⟨k, rfl, by cases h; rfl⟩

/-- Every instruction's handler answers a next state: a fatal error is a next state too (R227). -/
theorem exec_next (i : Instr) : ∃ t, exec i s = .next t := by
  cases i <;> exact ⟨_, rfl⟩

/-! ## The step (R111, R117) -/

theorem step_of_fault {r : FaultRecord} (h : s.fault = some r) : step s = .fault (.faulted r) := by
  simp [step, h]

theorem step_of_stopped (hf : s.fault = none) (hr : s.running = false) : step s = .fault .stopped := by
  simp [step, hf, hr]

theorem step_of_fetch {i : Instr} (hf : s.fault = none) (hr : s.running = true) (hi : s.fetch = .ok i) :
    step s = exec i s := by
  simp [step, hf, hr, hi]

theorem step_of_fetch_error {k : FaultKind} (hf : s.fault = none) (hr : s.running = true)
    (hk : s.fetch = .error k) : step s = .next (s.takeFault k) := by
  simp [step, hf, hr, hk]

/-- Everything a step can do: it is taken only by a Running engine, and it runs the fetched instruction or enters the
fault that the fetch raised. -/
theorem step_cases {t : State} (h : step s = .next t) :
    s.fault = none ∧ s.running = true ∧
      ((∃ i, s.fetch = .ok i ∧ exec i s = .next t) ∨ ∃ k, s.fetch = .error k ∧ t = s.takeFault k) := by
  cases hf : s.fault with
  | some r => rw [step_of_fault s hf] at h; cases h
  | none =>
    cases hr : s.running with
    | false => rw [step_of_stopped s hf hr] at h; cases h
    | true =>
      refine ⟨rfl, rfl, ?_⟩
      cases hi : s.fetch with
      | ok i => exact .inl ⟨i, rfl, by rw [← step_of_fetch s hf hr hi]; exact h⟩
      | error k =>
        rw [step_of_fetch_error s hf hr hi] at h
        exact .inr ⟨k, rfl, by cases h; rfl⟩

end Sys2Proof.Machine
end

