-- ==== Sys2Proof/Laws/Decode.lean ====
section
/-! SUPPORT. The laws of the dispatch table and of the decoder over a source of bytes. -/

namespace Sys2Proof

theorem Opcode.mem_all (o : Opcode) : o ∈ Opcode.all := by
  cases o <;> decide

/-- An injective map gives different labels different bytes (R88). -/
theorem OpcodeMap.byteOf_injective {m : OpcodeMap} (h : m.Injective) {o o' : Opcode}
    (ho : m.byteOf o = m.byteOf o') : o = o' :=
  List.inj_on_of_nodup_map h o.mem_all o'.mem_all ho

/-- A byte found in the table is the byte of the label found (R86). -/
theorem OpcodeMap.byteOf_of_lookup {m : OpcodeMap} {op : Byte} {o : Opcode} (h : m.lookup op = some o) :
    m.byteOf o = op := by
  simpa using List.find?_some h

/-- Under an injective map each label is found under its own byte (R86, R88). -/
theorem OpcodeMap.lookup_byteOf {m : OpcodeMap} (h : m.Injective) (o : Opcode) : m.lookup (m.byteOf o) = some o := by
  cases hl : m.lookup (m.byteOf o) with
  | none =>
    have := List.find?_eq_none.1 hl o o.mem_all
    simp at this
  | some o' => rw [OpcodeMap.byteOf_injective h (OpcodeMap.byteOf_of_lookup hl)]

/-- A byte not found is the byte of no label (R90). -/
theorem OpcodeMap.lookup_eq_none {m : OpcodeMap} {op : Byte} :
    m.lookup op = none ↔ ∀ o, m.byteOf o ≠ op := by
  constructor
  · intro h o ho
    have := List.find?_eq_none.1 h o o.mem_all
    simp [ho] at this
  · intro h
    exact List.find?_eq_none.2 fun o _ => by simpa using h o

theorem Opcode.opcode_toInstr (o : Opcode) (a b : Byte) : (o.toInstr a b).opcode = o := by
  cases o <;> rfl

theorem Instr.length_operands (i : Instr) : i.operands.length = i.opcode.operandCount := by
  cases i <;> rfl

/-- An instruction is its label applied to its operand bytes. -/
theorem Instr.toInstr_operands (i : Instr) :
    i.opcode.toInstr (i.operands.getD 0 0) (i.operands.getD 1 0) = i := by
  cases i <;> rfl

/-- The operand bytes of an instruction built from a list of `k` bytes are that list. -/
theorem Opcode.operands_toInstr (o : Opcode) (bs : List Byte) (h : bs.length = o.operandCount) :
    (o.toInstr (bs.getD 0 0) (bs.getD 1 0)).operands = bs := by
  match bs with
  | [] => cases o <;> first | rfl | simp [Opcode.operandCount] at h
  | [a] => cases o <;> first | rfl | simp [Opcode.operandCount] at h
  | [a, b] => cases o <;> first | rfl | simp [Opcode.operandCount] at h
  | a :: b :: c :: bs =>
    cases o <;> simp [Opcode.operandCount] at h

/-- Reading `k` bytes succeeds with `bs` exactly when each of them can be read. -/
theorem readBytes_eq_ok {ε : Type} {read : Nat → Except ε Byte} {start k : Nat} {bs : List Byte} :
    readBytes read start k = .ok bs ↔
      bs.length = k ∧ ∀ j (h : j < bs.length), read (start + j) = .ok bs[j] := by
  induction k generalizing start bs with
  | zero =>
    constructor
    · intro h
      obtain rfl : [] = bs := by simpa [readBytes] using h
      simp
    · rintro ⟨h, -⟩
      rw [List.length_eq_zero_iff.1 h]
      rfl
  | succ k ih =>
    constructor
    · intro h
      obtain ⟨b, hb, h⟩ := Machine.except_bind_eq_ok h
      obtain ⟨bs', hbs, h⟩ := Machine.except_bind_eq_ok h
      obtain rfl : b :: bs' = bs := by simpa using h
      obtain ⟨hl, hr⟩ := ih.1 hbs
      refine ⟨by simp [hl], fun j hj => ?_⟩
      cases j with
      | zero => exact hb
      | succ j =>
        have := hr j (by simpa using hj)
        rwa [show start + 1 + j = start + (j + 1) by omega] at this
    · rintro ⟨hl, hr⟩
      cases bs with
      | nil => simp at hl
      | cons b bs =>
        have hb : read start = .ok b := hr 0 (by simp)
        have hbs : readBytes read (start + 1) k = .ok bs := by
          refine ih.2 ⟨by simpa using hl, fun j hj => ?_⟩
          have := hr (j + 1) (by simpa using hj)
          rwa [show start + (j + 1) = start + 1 + j by omega] at this
        simp [readBytes, hb, hbs]

/-- Reading consecutive bytes fails only as one of the reads from `start` upward does. -/
theorem readBytes_eq_error {ε : Type} {read : Nat → Except ε Byte} {start k : Nat} {e : ε}
    (h : readBytes read start k = .error e) : ∃ j, start ≤ j ∧ read j = .error e := by
  induction k generalizing start with
  | zero => cases h
  | succ k ih =>
    rcases Machine.except_bind_eq_error h with h | ⟨b, _, h⟩
    · exact ⟨start, le_refl start, h⟩
    · rcases Machine.except_bind_eq_error h with h | ⟨bs, _, h⟩
      · obtain ⟨j, hj, hr⟩ := ih h
        exact ⟨j, by omega, hr⟩
      · cases h

/-- The decoder answers `i` exactly when the source gives the opcode byte of a label and that label's `k` operand
bytes, and they make `i` (R112 to R114). -/
theorem decodeFrom_eq_ok {ε : Type} {m : OpcodeMap} {read : Nat → Except ε Byte} {unknown : Byte → ε} {i : Instr} :
    decodeFrom m read unknown = .ok i ↔
      ∃ op, read 0 = .ok op ∧ m.lookup op = some i.opcode ∧
        ∀ j (h : j < i.operands.length), read (1 + j) = .ok i.operands[j] := by
  constructor
  · intro h
    obtain ⟨op, hop, h⟩ := Machine.except_bind_eq_ok h
    cases hl : m.lookup op with
    | none => simp [hl] at h
    | some o =>
      simp only [hl] at h
      obtain ⟨bs, hbs, h⟩ := Machine.except_bind_eq_ok h
      obtain rfl : o.toInstr (bs.getD 0 0) (bs.getD 1 0) = i := by simpa using h
      obtain ⟨hlen, hr⟩ := readBytes_eq_ok.1 hbs
      rw [Opcode.opcode_toInstr, Opcode.operands_toInstr o bs hlen]
      exact ⟨op, hop, hl, hr⟩
  · rintro ⟨op, hop, hl, hr⟩
    have hbs : readBytes read 1 i.opcode.operandCount = .ok i.operands :=
      readBytes_eq_ok.2 ⟨i.length_operands, hr⟩
    simp only [decodeFrom, hop, Machine.except_bind_ok, hl, hbs, Machine.except_pure, Instr.toInstr_operands]

end Sys2Proof

namespace Sys2Proof.Machine

variable (s : State)

/-- The engine fetches `i` exactly when the cells from the Program Counter upward exist and hold `i`'s encoding. -/
theorem State.fetch_eq_ok {i : Instr} :
    s.fetch = .ok i ↔
      s.params.opcodeMap.lookup (s.mem.read s.pc) = some i.opcode ∧ s.pc + i.opcode.operandCount < s.params.memSize ∧
        ∀ j (h : j < i.operands.length), s.mem.read (s.pc + 1 + j) = i.operands[j] := by
  have hlen := i.length_operands
  unfold State.fetch
  rw [decodeFrom_eq_ok]
  constructor
  · rintro ⟨op, hop, hl, hr⟩
    have h0 : s.pc < s.params.memSize ∧ s.mem.read s.pc = op := by
      by_cases hlt : s.pc < s.params.memSize
      · exact ⟨hlt, by simpa [State.memRead_of_lt, hlt] using hop⟩
      · simp [State.memRead, hlt] at hop
    have hj : ∀ j (h : j < i.operands.length),
        s.pc + 1 + j < s.params.memSize ∧ s.mem.read (s.pc + 1 + j) = i.operands[j] := by
      intro j h
      have := hr j h
      rw [show s.pc + (1 + j) = s.pc + 1 + j by omega] at this
      by_cases hlt : s.pc + 1 + j < s.params.memSize
      · exact ⟨hlt, by simpa [State.memRead_of_lt, hlt] using this⟩
      · simp [State.memRead, hlt] at this
    refine ⟨by rw [h0.2]; exact hl, ?_, fun j h => (hj j h).2⟩
    rcases Nat.eq_zero_or_pos i.opcode.operandCount with hz | hpos
    · rw [hz]
      exact h0.1
    · have := (hj (i.opcode.operandCount - 1) (by omega)).1
      omega
  · rintro ⟨hl, hlt, hr⟩
    refine ⟨s.mem.read s.pc, s.memRead_of_lt (by omega), hl, fun j h => ?_⟩
    rw [← hr j h, show s.pc + (1 + j) = s.pc + 1 + j by omega]
    exact s.memRead_of_lt (by omega)

end Sys2Proof.Machine
end

