-- ==== Sys2Proof/Laws/Memory.lean ====
section
/-! SUPPORT. The laws of memory: a read after a write, every other cell untouched, and the canonical form kept. -/

namespace Sys2Proof.Machine

@[simp] theorem Memory.read_nil (a : Nat) : Memory.read [] a = Memory.blank := rfl

theorem Memory.read_cons (c : Host.Cell) (m : Memory) (a : Nat) :
    Memory.read (c :: m) a = if c.1 = a then c.2 else Memory.read m a := rfl

/-- No cell listed for the address: it reads as an unlisted cell does. -/
theorem Memory.read_unlisted {m : Memory} {a : Nat} (h : ∀ c ∈ m, c.1 ≠ a) : m.read a = Memory.blank := by
  induction m with
  | nil => rfl
  | cons c m ih =>
    rw [Memory.read_cons, if_neg (h c (by simp)), ih fun d hd => h d (by simp [hd])]

theorem Memory.read_filter_other (m : Memory) {a b : Nat} (h : b ≠ a) :
    Memory.read (m.filter (fun c => c.1 != a)) b = m.read b := by
  induction m with
  | nil => rfl
  | cons c m ih =>
    by_cases hc : c.1 = a
    · have hb : c.1 ≠ b := fun h' => h (h'.symm.trans hc)
      simp [hc, Memory.read_cons, ih, h.symm]
    · simp [hc, Memory.read_cons, ih]

theorem Memory.mem_insertCell {c d : Host.Cell} {m : Memory} : d ∈ m.insertCell c ↔ d = c ∨ d ∈ m := by
  induction m with
  | nil => simp [Memory.insertCell]
  | cons e m ih =>
    unfold Memory.insertCell
    split
    · simp
    · simp only [List.mem_cons, ih]
      tauto

theorem Memory.read_insertCell_other (m : Memory) {c : Host.Cell} {b : Nat} (h : b ≠ c.1) :
    (m.insertCell c).read b = m.read b := by
  induction m with
  | nil => simp [Memory.insertCell, Memory.read_cons, h.symm]
  | cons e m ih =>
    unfold Memory.insertCell
    split
    · rw [Memory.read_cons, if_neg h.symm]
    · rw [Memory.read_cons, Memory.read_cons, ih]

theorem Memory.read_insertCell_same {m : Memory} {c : Host.Cell} (h : ∀ d ∈ m, d.1 ≠ c.1) :
    (m.insertCell c).read c.1 = c.2 := by
  induction m with
  | nil => simp [Memory.insertCell, Memory.read_cons]
  | cons e m ih =>
    unfold Memory.insertCell
    split
    · simp [Memory.read_cons]
    · rw [Memory.read_cons, if_neg (h e (by simp)), ih fun d hd => h d (by simp [hd])]

theorem Memory.ne_of_mem_filter {m : Memory} {a : Nat} : ∀ c ∈ m.filter (fun c => c.1 != a), c.1 ≠ a := by
  intro c hc
  simpa using (List.mem_filter.1 hc).2

/-- Reading the cell just written gives the value written (R57), in any memory, canonical or not. -/
@[simp] theorem Memory.read_write_same (m : Memory) (a : Nat) (v : Byte) : (m.write a v).read a = v := by
  simp only [Memory.write]
  split
  · rename_i h
    rw [h, Memory.read_unlisted Memory.ne_of_mem_filter]
  · exact Memory.read_insertCell_same (c := (a, v)) Memory.ne_of_mem_filter

/-- Writing one cell leaves every other cell alone (R57). -/
theorem Memory.read_write_other (m : Memory) {a b : Nat} (v : Byte) (h : b ≠ a) :
    (m.write a v).read b = m.read b := by
  simp only [Memory.write]
  split
  · exact m.read_filter_other h
  · rw [Memory.read_insertCell_other _ (c := (a, v)) h, m.read_filter_other h]

theorem Memory.read_write (m : Memory) (a b : Nat) (v : Byte) :
    (m.write a v).read b = if b = a then v else m.read b := by
  split
  · rename_i h
    rw [h, Memory.read_write_same]
  · rename_i h
    exact m.read_write_other v h

theorem Memory.pairwise_insertCell {m : Memory} {c : Host.Cell} (hm : m.Pairwise (fun c d => c.1 < d.1))
    (h : ∀ d ∈ m, d.1 ≠ c.1) : (m.insertCell c).Pairwise (fun c d => c.1 < d.1) := by
  induction m with
  | nil => simp [Memory.insertCell]
  | cons e m ih =>
    obtain ⟨he, hm'⟩ := List.pairwise_cons.1 hm
    unfold Memory.insertCell
    split
    · rename_i hlt
      refine List.pairwise_cons.2 ⟨fun d hd => ?_, hm⟩
      rcases List.mem_cons.1 hd with rfl | hd
      · exact hlt
      · exact Nat.lt_trans hlt (he d hd)
    · rename_i hge
      refine List.pairwise_cons.2 ⟨fun d hd => ?_, ih hm' fun d hd => h d (by simp [hd])⟩
      rcases Memory.mem_insertCell.1 hd with rfl | hd
      · have := h e (by simp)
        omega
      · exact he d hd

/-- A write keeps the canonical form. -/
theorem Memory.write_wf {m : Memory} (hm : m.wf) (a : Nat) (v : Byte) : (m.write a v).wf := by
  have hf : (m.filter (fun c => c.1 != a)).Pairwise (fun c d => c.1 < d.1) := hm.1.filter _
  simp only [Memory.write]
  split
  · exact ⟨hf, fun c hc => hm.2 c (List.mem_filter.1 hc).1⟩
  · rename_i hv
    refine ⟨Memory.pairwise_insertCell hf Memory.ne_of_mem_filter, fun c hc => ?_⟩
    rcases Memory.mem_insertCell.1 hc with rfl | hc
    · exact hv
    · exact hm.2 c (List.mem_filter.1 hc).1

/-- A write to a cell that exists keeps the list inside the `N` cells. -/
theorem Memory.write_within {m : Memory} {size : Nat} (hm : m.Within size) {a : Nat} (ha : a < size) (v : Byte) :
    (m.write a v).Within size := by
  intro c hc
  simp only [Memory.write] at hc
  split at hc
  · exact hm c (List.mem_filter.1 hc).1
  · rcases Memory.mem_insertCell.1 hc with rfl | hc
    · exact ha
    · exact hm c (List.mem_filter.1 hc).1

/-- Writing consecutive cells keeps the canonical form. -/
theorem Memory.writeBytes_wf {m : Memory} (hm : m.wf) (a : Nat) (vs : List Byte) : (m.writeBytes a vs).wf := by
  induction vs generalizing m a with
  | nil => exact hm
  | cons v vs ih => exact ih (Memory.write_wf hm a v) (a + 1)

/-- Writing consecutive cells that exist keeps the list inside the `N` cells. -/
theorem Memory.writeBytes_within {m : Memory} {size : Nat} (hm : m.Within size) {a : Nat} {vs : List Byte}
    (h : a + vs.length ≤ size) : (m.writeBytes a vs).Within size := by
  induction vs generalizing m a with
  | nil => exact hm
  | cons v vs ih =>
    simp only [List.length_cons] at h
    exact ih (Memory.write_within hm (by omega) v) (by omega)

/-- Cells outside the written range keep their contents. -/
theorem Memory.read_writeBytes_outside (m : Memory) (a b : Nat) (vs : List Byte)
    (h : b < a ∨ a + vs.length ≤ b) : (m.writeBytes a vs).read b = m.read b := by
  induction vs generalizing m a with
  | nil => rfl
  | cons v vs ih =>
    simp only [List.length_cons] at h
    rw [Memory.writeBytes, ih _ _ (by omega), Memory.read_write_other _ _ (by omega)]

/-- Cell `a + i` of the written range holds byte `i`. -/
theorem Memory.read_writeBytes_inside (m : Memory) (a i : Nat) (vs : List Byte) (h : i < vs.length) :
    (m.writeBytes a vs).read (a + i) = vs[i] := by
  induction vs generalizing m a i with
  | nil => simp at h
  | cons v vs ih =>
    cases i with
    | zero =>
      rw [Memory.writeBytes, Memory.read_writeBytes_outside _ _ _ _ (by omega)]
      simp
    | succ i =>
      rw [Memory.writeBytes, show a + (i + 1) = a + 1 + i by omega, ih _ _ _ (by simpa using h)]
      simp

/-- Reset memory is canonical. -/
theorem Memory.reset_wf (p : Params) : (State.resetWith p).mem.wf :=
  ⟨List.Pairwise.nil, fun _ hc => absurd hc List.not_mem_nil⟩

end Sys2Proof.Machine
end

