-- ==== Sys2Proof/Laws/PerInstr.lean ====
section
/-! SUPPORT. The statements made per instruction. Family `EncodedLength`: an instruction's encoding has the length
that the dispatch table gives its label (R80, R86). -/

namespace Sys2Proof.Laws

/-- The encoding under any opcode map is one opcode byte and `k` operand bytes (R80). -/
def EncodedLength.Statement (i : Instr) : Prop :=
  ∀ m : OpcodeMap, (encode m i).length = 1 + i.opcode.operandCount

theorem EncodedLength.add (a b : Byte) : EncodedLength.Statement (.add a b) := fun _ => rfl
theorem EncodedLength.mul (a b : Byte) : EncodedLength.Statement (.mul a b) := fun _ => rfl
theorem EncodedLength.and (a b : Byte) : EncodedLength.Statement (.and a b) := fun _ => rfl
theorem EncodedLength.cmp (a b : Byte) : EncodedLength.Statement (.cmp a b) := fun _ => rfl
theorem EncodedLength.jmp (a : Byte) : EncodedLength.Statement (.jmp a) := fun _ => rfl
theorem EncodedLength.jeq (a : Byte) : EncodedLength.Statement (.jeq a) := fun _ => rfl
theorem EncodedLength.jne (a : Byte) : EncodedLength.Statement (.jne a) := fun _ => rfl
theorem EncodedLength.call (a : Byte) : EncodedLength.Statement (.call a) := fun _ => rfl
theorem EncodedLength.ret : EncodedLength.Statement .ret := fun _ => rfl
theorem EncodedLength.push (a : Byte) : EncodedLength.Statement (.push a) := fun _ => rfl
theorem EncodedLength.pop (a : Byte) : EncodedLength.Statement (.pop a) := fun _ => rfl
theorem EncodedLength.ldi (a imm : Byte) : EncodedLength.Statement (.ldi a imm) := fun _ => rfl
theorem EncodedLength.st (a b : Byte) : EncodedLength.Statement (.st a b) := fun _ => rfl
theorem EncodedLength.prn (a : Byte) : EncodedLength.Statement (.prn a) := fun _ => rfl
theorem EncodedLength.pra (a : Byte) : EncodedLength.Statement (.pra a) := fun _ => rfl
theorem EncodedLength.hlt : EncodedLength.Statement .hlt := fun _ => rfl

end Sys2Proof.Laws
end

