-- ==== Sys2Proof/Laws/Run.lean ====
section
/-! SUPPORT. Runs: the host's run function unfolded one step at a time, at either end. -/

namespace Sys2Proof.Safety

open Sys2Proof.Machine

theorem run_of_next {s t : State} (n : Nat) (h : step s = .next t) :
    Host.Core.run Sys2Proof.core (n + 1) s = Host.Core.run Sys2Proof.core n t := by
  have h' : Sys2Proof.core.step s = .next t := h
  simp only [Host.Core.run, h']

theorem run_of_fault {s : State} {r : Fault} (n : Nat) (h : step s = .fault r) :
    Host.Core.run Sys2Proof.core (n + 1) s = .fault r := by
  have h' : Sys2Proof.core.step s = .fault r := h
  simp only [Host.Core.run, h']

theorem run_of_refused {s : State} {r : Refusal} (n : Nat) (h : step s = .refused r) :
    Host.Core.run Sys2Proof.core (n + 1) s = .refused r := by
  have h' : Sys2Proof.core.step s = .refused r := h
  simp only [Host.Core.run, h']

theorem after_zero (s : State) : After s 0 s := rfl

/-- One more step at the front of a run. -/
theorem after_succ_first {s t : State} {n : Nat} : After s (n + 1) t ↔ ∃ u, step s = .next u ∧ After u n t := by
  unfold After
  cases h : step s with
  | next u =>
    rw [run_of_next n h]
    exact ⟨fun hr => ⟨u, rfl, hr⟩, fun ⟨v, hv, hr⟩ => by cases hv; exact hr⟩
  | fault r =>
    rw [run_of_fault n h]
    exact ⟨fun hr => (nomatch hr), fun ⟨v, hv, _⟩ => (nomatch hv)⟩
  | refused r =>
    rw [run_of_refused n h]
    exact ⟨fun hr => (nomatch hr), fun ⟨v, hv, _⟩ => (nomatch hv)⟩

/-- One more step at the end of a run. -/
theorem after_succ_last {s t : State} {n : Nat} : After s (n + 1) t ↔ ∃ u, After s n u ∧ step u = .next t := by
  induction n generalizing s with
  | zero =>
    rw [after_succ_first]
    constructor
    · rintro ⟨u, hu, h⟩
      cases h
      exact ⟨s, after_zero s, hu⟩
    · rintro ⟨u, h, hu⟩
      cases h
      exact ⟨t, hu, after_zero t⟩
  | succ n ih =>
    rw [after_succ_first]
    constructor
    · rintro ⟨u, hu, h⟩
      obtain ⟨v, hv, hs⟩ := ih.1 h
      exact ⟨v, after_succ_first.2 ⟨u, hu, hv⟩, hs⟩
    · rintro ⟨v, hv, hs⟩
      obtain ⟨u, hu, h⟩ := after_succ_first.1 hv
      exact ⟨u, hu, ih.2 ⟨v, h, hs⟩⟩

/-- The state after `n` steps is unique. -/
theorem after_unique {s t u : State} {n : Nat} (h : After s n t) (h' : After s n u) : t = u := by
  unfold After at h h'
  rw [h] at h'
  cases h'
  rfl

/-- A run whose last state differs from its first took at least one step. -/
theorem after_pos_of_ne {s t : State} {n : Nat} (h : After s n t) (hne : t ≠ s) : 0 < n := by
  refine Nat.pos_of_ne_zero fun hn => hne ?_
  subst hn
  exact (after_unique h (after_zero s))

/-- For a run that was started, a successful end is a state of it that is halted. -/
theorem endsSuccessfully_iff {s t : State} {n : Nat} (hs : s.engineState = .running) :
    EndsSuccessfully s n t ↔ After s n t ∧ t.running = false ∧ t.fault = none := by
  refine ⟨fun ⟨_, _, h⟩ => h, fun h => ⟨hs, after_pos_of_ne h.1 ?_, h⟩⟩
  rintro rfl
  have hr := (State.engineState_eq_running t).1 hs
  exact absurd (hr.2.symm.trans h.2.1) (by decide)

/-- For a run that was started, a failure is a state of it that is Faulted. -/
theorem fails_iff {s t : State} {n : Nat} (hs : s.engineState = .running) :
    Fails s n t ↔ After s n t ∧ t.fault ≠ none := by
  refine ⟨fun ⟨_, _, h⟩ => h, fun h => ⟨hs, after_pos_of_ne h.1 ?_, h⟩⟩
  rintro rfl
  exact h.2 ((State.engineState_eq_running t).1 hs).1

/-- A Running state that steps to itself runs for ever. -/
theorem runsForever_of_loop {s : State} (hs : s.engineState = .running) (h : step s = .next s) : RunsForever s := by
  have hall : ∀ n, After s n s := by
    intro n
    induction n with
    | zero => exact after_zero s
    | succ n ih => exact after_succ_first.2 ⟨s, h, ih⟩
  exact fun n => ⟨s, hall n, hs⟩

end Sys2Proof.Safety
end

