-- ==== Sys2Proof/Tests/Slice0.lean ====
section
/-! SUPPORT. Tests on fixed values, from the encodings of R87 and the vectors V<n> of spec/95_test_vectors.md or worked out
by hand from the rules, and the witnesses that the hypotheses of the statements can be met. -/

namespace Sys2Proof.Tests

open Sys2Proof Sys2Proof.Machine Sys2Proof.Safety

/-! ## Helpers -/

/-- Parameters with a given memory size and AND mode, under the default opcode map. -/
def params (n : Nat) (mode : AndMode) : Params := { memSize := n, opcodeMap := OpcodeMap.published, andMode := mode }

/-- A Running engine with 256 cells, in the state after reset but for these. -/
def engine (mem : Memory) (regs : Vector Byte 8) (pc : Nat) : State :=
  { State.resetWith (params 256 .noop) with mem := mem, regs := regs, pc := pc, running := true }

/-- The same with another memory size and AND mode. -/
def engineOf (n : Nat) (mode : AndMode) (mem : Memory) (regs : Vector Byte 8) (pc : Nat) : State :=
  { engine mem regs pc with params := params n mode }

/-- The next state, if the outcome is one. -/
def nextOf (o : Host.Outcome State Fault Refusal) : Option State :=
  match o with
  | .next t => some t
  | .fault _ => none
  | .refused _ => none

/-- The fault outcome, if it is one. -/
def faultOf (o : Host.Outcome State Fault Refusal) : Option Fault :=
  match o with
  | .next _ => none
  | .fault r => some r
  | .refused _ => none

/-! ## Well-formedness: an ill-formed term for each check -/

theorem test_params_admitted : (params 256 .noop).Admitted ∧ (params 1 .bitwise).Admitted := by decide
theorem test_params_no_cell_refused : ¬ (params 0 .noop).Admitted := by decide
theorem test_params_too_many_cells_refused : ¬ (params 257 .noop).Admitted := by decide
theorem test_params_two_labels_one_byte_refused :
    ¬ ({ memSize := 256, opcodeMap := { OpcodeMap.published with mul := 0xA0 }, andMode := .noop } : Params).Admitted := by
  decide
theorem test_wellFormed_add : (Instr.add 7 0).wellFormed = true ∧ (Instr.add 8 0).wellFormed = false ∧
    (Instr.add 0 8).wellFormed = false := by decide
theorem test_wellFormed_mul : (Instr.mul 7 0).wellFormed = true ∧ (Instr.mul 8 0).wellFormed = false ∧
    (Instr.mul 0 8).wellFormed = false := by decide
theorem test_wellFormed_and : (Instr.and 7 0).wellFormed = true ∧ (Instr.and 8 0).wellFormed = false ∧
    (Instr.and 0 8).wellFormed = false := by decide
theorem test_wellFormed_cmp : (Instr.cmp 7 0).wellFormed = true ∧ (Instr.cmp 8 0).wellFormed = false ∧
    (Instr.cmp 0 8).wellFormed = false := by decide
theorem test_wellFormed_st : (Instr.st 7 0).wellFormed = true ∧ (Instr.st 8 0).wellFormed = false ∧
    (Instr.st 0 8).wellFormed = false := by decide
theorem test_wellFormed_jmp : (Instr.jmp 7).wellFormed = true ∧ (Instr.jmp 8).wellFormed = false := by decide
theorem test_wellFormed_jeq : (Instr.jeq 7).wellFormed = true ∧ (Instr.jeq 8).wellFormed = false := by decide
theorem test_wellFormed_jne : (Instr.jne 7).wellFormed = true ∧ (Instr.jne 8).wellFormed = false := by decide
theorem test_wellFormed_call : (Instr.call 7).wellFormed = true ∧ (Instr.call 8).wellFormed = false := by decide
theorem test_wellFormed_push : (Instr.push 7).wellFormed = true ∧ (Instr.push 8).wellFormed = false := by decide
theorem test_wellFormed_pop : (Instr.pop 7).wellFormed = true ∧ (Instr.pop 8).wellFormed = false := by decide
theorem test_wellFormed_prn : (Instr.prn 7).wellFormed = true ∧ (Instr.prn 8).wellFormed = false := by decide
theorem test_wellFormed_pra : (Instr.pra 7).wellFormed = true ∧ (Instr.pra 8).wellFormed = false := by decide
theorem test_wellFormed_ldi : (Instr.ldi 7 255).wellFormed = true ∧ (Instr.ldi 8 0).wellFormed = false := by decide

/-! ## Decoding: a word of every row, its bits from R87, its operand bytes at ascending addresses (R80) -/

theorem test_decode_add : decode OpcodeMap.published [0b10100000#8, 0b00000010#8, 0b00000101#8] = .ok (.add 2 5, []) := rfl
theorem test_decode_mul : decode OpcodeMap.published [0b10100010#8, 0b00000010#8, 0b00000101#8] = .ok (.mul 2 5, []) := rfl
theorem test_decode_and : decode OpcodeMap.published [0b10101000#8, 0b00000010#8, 0b00000101#8] = .ok (.and 2 5, []) := rfl
theorem test_decode_cmp : decode OpcodeMap.published [0b10100111#8, 0b00000010#8, 0b00000101#8] = .ok (.cmp 2 5, []) := rfl
theorem test_decode_jmp : decode OpcodeMap.published [0b01010100#8, 0b00000011#8, 0xEE#8] = .ok (.jmp 3, [0xEE#8]) := rfl
theorem test_decode_jeq : decode OpcodeMap.published [0b01010101#8, 0b00000011#8, 0xEE#8] = .ok (.jeq 3, [0xEE#8]) := rfl
theorem test_decode_jne : decode OpcodeMap.published [0b01010110#8, 0b00000011#8, 0xEE#8] = .ok (.jne 3, [0xEE#8]) := rfl
theorem test_decode_call : decode OpcodeMap.published [0b01010000#8, 0b00000011#8, 0xEE#8] = .ok (.call 3, [0xEE#8]) := rfl
theorem test_decode_ret : decode OpcodeMap.published [0b00010001#8, 0xEE#8] = .ok (.ret, [0xEE#8]) := rfl
theorem test_decode_push : decode OpcodeMap.published [0b01000101#8, 0b00000011#8, 0xEE#8] = .ok (.push 3, [0xEE#8]) := rfl
theorem test_decode_pop : decode OpcodeMap.published [0b01000110#8, 0b00000011#8, 0xEE#8] = .ok (.pop 3, [0xEE#8]) := rfl
theorem test_decode_ldi : decode OpcodeMap.published [0b10000010#8, 0b00000010#8, 0b00000101#8] = .ok (.ldi 2 5, []) := rfl
theorem test_decode_st : decode OpcodeMap.published [0b10000100#8, 0b00000010#8, 0b00000101#8] = .ok (.st 2 5, []) := rfl
theorem test_decode_prn : decode OpcodeMap.published [0b01000111#8, 0b00000011#8, 0xEE#8] = .ok (.prn 3, [0xEE#8]) := rfl
theorem test_decode_pra : decode OpcodeMap.published [0b01001000#8, 0b00000011#8, 0xEE#8] = .ok (.pra 3, [0xEE#8]) := rfl
theorem test_decode_hlt : decode OpcodeMap.published [0b00000001#8, 0xEE#8] = .ok (.hlt, [0xEE#8]) := rfl
theorem test_decode_zero_is_no_instruction : decode OpcodeMap.published [0x00#8] = .error (.unknownOpcode 0x00) := rfl
theorem test_decode_missing_operand : decode OpcodeMap.published [0x82#8, 0x00#8] = .error (.missingByte 2) := rfl
theorem test_decode_no_bytes : decode OpcodeMap.published [] = .error (.missingByte 0) := rfl
/-- A second assignment: the labels swap bytes, and their operand counts go with them (R88). -/
theorem test_decode_other_map :
    decode { OpcodeMap.published with hlt := 0xA0, add := 0x01 } [0x01#8, 0x00#8, 0x01#8] = .ok (.add 0 1, []) := rfl
theorem test_decodeTableWord : decodeTableWord 24 0x080082 = some (.ldi 0 8) ∧ decodeTableWord 8 0x080082 = some (.ldi 0 0) ∧
    decodeTableWord 8 0x01 = some .hlt ∧ decodeTableWord 16 0xFF46 = some (.pop 255) := by decide
theorem test_encode_r95 : encode OpcodeMap.published (.ldi 0 8) ++ encode OpcodeMap.published (.prn 0) ++
    encode OpcodeMap.published .hlt = [0x82, 0x00, 0x08, 0x47, 0x00, 0x01] := by decide

/-! ## One step of each instruction -/

/-- V2: 200 + 100 wraps to 44, `pc` by 3, flags untouched. -/
theorem test_add_wraps : (nextOf (exec (.add 0 1) (engine [] #v[200, 100, 0, 0, 0, 0, 0, 0xF4] 6))).map
    (fun t => (t.regs, t.pc, t.flags)) = some (#v[44, 100, 0, 0, 0, 0, 0, 0xF4], 9, ⟨false, false, false⟩) := by decide
/-- V83: `a` is checked before `b`. -/
theorem test_add_bad_registers : nextOf (exec (.add 8 9) (engine [] resetRegs 0)) =
    some { engine [] resetRegs 0 with fault := some ⟨.invalidRegister 8, 0⟩ } := by decide
/-- V12 and V18: 255 * 255 keeps 1; both sources are read before the write. -/
theorem test_mul_wraps : (nextOf (exec (.mul 0 0) (engine [] #v[255, 0, 0, 0, 0, 0, 0, 0xF4] 0))).map
    (fun t => (t.regs[0], t.pc)) = some (1, 3) := by decide
/-- V30 in both modes. -/
theorem test_and_modes :
    (nextOf (exec (.and 0 1) (engineOf 256 .noop [] #v[0xCC, 0xAA, 0, 0, 0, 0, 0, 0xF4] 0))).map (fun t => (t.regs[0], t.pc)) =
      some (0xCC, 3) ∧
    (nextOf (exec (.and 0 1) (engineOf 256 .bitwise [] #v[0xCC, 0xAA, 0, 0, 0, 0, 0, 0xF4] 0))).map (fun t => (t.regs[0], t.pc)) =
      some (0x88, 3) := by decide
/-- V34 and V35. -/
theorem test_and_bad_operands :
    nextOf (exec (.and 9 9) (engineOf 256 .noop [] resetRegs 0)) = some (engineOf 256 .noop [] resetRegs 3) ∧
    nextOf (exec (.and 9 9) (engineOf 256 .bitwise [] resetRegs 0)) =
      some { engineOf 256 .bitwise [] resetRegs 0 with fault := some ⟨.invalidRegister 9, 0⟩ } := by decide
/-- V25: the comparison is unsigned. -/
theorem test_cmp_unsigned : (nextOf (exec (.cmp 0 1) (engine [] #v[0x80, 0x7F, 0, 0, 0, 0, 0, 0xF4] 0))).map
    (fun t => (t.flags, t.pc)) = some (⟨false, true, false⟩, 3) := by decide
/-- V20 and V22. -/
theorem test_cmp_equal_less :
    (nextOf (exec (.cmp 0 1) (engine [] #v[5, 5, 0, 0, 0, 0, 0, 0xF4] 0))).map (·.flags) = some ⟨true, false, false⟩ ∧
    (nextOf (exec (.cmp 0 1) (engine [] #v[3, 9, 0, 0, 0, 0, 0, 0xF4] 0))).map (·.flags) = some ⟨false, false, true⟩ := by
  decide
/-- R150's example. -/
theorem test_jmp : nextOf (exec (.jmp 3) (engine [] #v[0, 0, 0, 0x0C, 0, 0, 0, 0xF4] 0x14)) =
    some (engine [] #v[0, 0, 0, 0x0C, 0, 0, 0, 0xF4] 0x0C) := by decide
/-- R151's example, and V47: not taken, an operand byte of 9 is ignored. -/
theorem test_jeq : (nextOf (exec (.jeq 3) { engine [] #v[0, 0, 0, 0x20, 0, 0, 0, 0xF4] 0x10 with flags := ⟨true, false, false⟩ })).map
    (·.pc) = some 0x20 ∧ (nextOf (exec (.jeq 9) (engine [] resetRegs 0x10))).map (·.pc) = some 0x12 := by decide
/-- R152's example, and V48: taken, an operand byte of 9 faults. -/
theorem test_jne : (nextOf (exec (.jne 3) (engine [] #v[0, 0, 0, 0x0C, 0, 0, 0, 0xF4] 0x14))).map (·.pc) = some 0x0C ∧
    (nextOf (exec (.jne 9) (engine [] resetRegs 0))).map (·.fault) = some (some ⟨.invalidRegister 9, 0⟩) := by decide
/-- R153's example. -/
theorem test_call : nextOf (exec (.call 1) (engine [] #v[0, 0x11, 0, 0, 0, 0, 0, 0xF4] 0x09)) =
    some (engine [(0xF3, 0x0B)] #v[0, 0x11, 0, 0, 0, 0, 0, 0xF3] 0x11) := by decide
/-- V64, V63 and V65: the order of CALL's checks, and `CALL R7`. -/
theorem test_call_corners :
    (nextOf (exec (.call 9) (engine [] resetRegs 254))).map (·.fault) = some (some ⟨.invalidRegister 9, 254⟩) ∧
    (nextOf (exec (.call 0) (engine [] resetRegs 254))).map (·.fault) = some (some ⟨.invalidAddress 256, 254⟩) ∧
    (nextOf (exec (.call 7) (engine [] resetRegs 0))).map (fun t => (t.mem, t.pc)) = some ([(0xF3, 2)], 0xF3) := by decide
/-- R154's example: the popped cell keeps its byte. -/
theorem test_ret : nextOf (exec .ret (engine [(0xF3, 0x0B)] #v[0, 0, 0, 0, 0, 0, 0, 0xF3] 0x1B)) =
    some (engine [(0xF3, 0x0B)] #v[0, 0, 0, 0, 0, 0, 0, 0xF4] 0x0B) := by decide
/-- V53 and V55: `PUSH R7` stores the decremented pointer; at `SP` = 0 it wraps. -/
theorem test_push_corners :
    nextOf (exec (.push 7) (engine [] resetRegs 0)) = some (engine [(0xF3, 0xF3)] #v[0, 0, 0, 0, 0, 0, 0, 0xF3] 2) ∧
    nextOf (exec (.push 0) (engine [] #v[0xAB, 0, 0, 0, 0, 0, 0, 0] 6)) =
      some (engine [(0xFF, 0xAB)] #v[0xAB, 0, 0, 0, 0, 0, 0, 0xFF] 8) := by decide
/-- The vector of B6 with 128 cells: the store faults and the pointer is not decremented. -/
theorem test_push_fault_is_precise : nextOf (exec (.push 0) (engineOf 128 .noop [] resetRegs 0)) =
    some { engineOf 128 .noop [] resetRegs 0 with fault := some ⟨.invalidAddress 0xF3, 0⟩ } := by decide
/-- V54 and V56: `POP R7`, and the wrap at `SP` = 0xFF. -/
theorem test_pop_corners :
    (nextOf (exec (.pop 7) (engine [(0x80, 0x20)] #v[0, 0, 0, 0, 0, 0, 0, 0x80] 3))).map (fun t => (t.sp, t.pc)) =
      some (0x21, 5) ∧
    (nextOf (exec (.pop 0) (engine [(0xFF, 0x5A)] #v[0, 0, 0, 0, 0, 0, 0, 0xFF] 3))).map (fun t => (t.regs[0], t.sp)) =
      some (0x5A, 0) := by decide
/-- V90 and V92: the immediate as it is, registers 5 to 7 like any other. -/
theorem test_ldi : (nextOf (exec (.ldi 5 0xAA) (engine [] resetRegs 0))).map (fun t => (t.regs, t.pc)) =
    some (#v[0, 0, 0, 0, 0, 0xAA, 0, 0xF4], 3) := by decide
/-- V94: the first operand is the address, the second the value. -/
theorem test_st : nextOf (exec (.st 2 0) (engine [] #v[0x15, 0, 0x80, 0, 0, 0, 0, 0xF4] 6)) =
    some (engine [(0x80, 0x15)] #v[0x15, 0, 0x80, 0, 0, 0, 0, 0xF4] 9) := by decide
/-- V85: with 128 cells the address 128 does not exist. -/
theorem test_st_out_of_range : (nextOf (exec (.st 0 1) (engineOf 128 .noop [] #v[0x80, 0, 0, 0, 0, 0, 0, 0xF4] 3))).map
    (fun t => (t.fault, t.mem)) = some (some ⟨.invalidAddress 128, 3⟩, []) := by decide
/-- V100 after an earlier event: appended at the end. -/
theorem test_prn : (nextOf (exec (.prn 0) { engine [] #v[255, 0, 0, 0, 0, 0, 0, 0xF4] 3 with out := [⟨.pra, 1⟩] })).map
    (fun t => (t.out, t.pc)) = some ([⟨.pra, 1⟩, ⟨.prn, 255⟩], 5) := by decide
/-- V102. -/
theorem test_pra : (nextOf (exec (.pra 0) (engine [] #v[72, 0, 0, 0, 0, 0, 0, 0xF4] 3))).map
    (fun t => (t.out, t.pc)) = some ([⟨.pra, 72⟩], 5) := by decide
/-- V104. -/
theorem test_hlt : nextOf (exec .hlt (engine [(0, 1)] resetRegs 0)) =
    some { engine [(0, 1)] resetRegs 0 with running := false } := by decide

/-! ## The step -/

/-- V70: HLT in the last cell reads no operand byte. -/
theorem test_step_hlt_last_cell : (nextOf (step (engine [(0xFF, 1)] resetRegs 0xFF))).map (fun t => (t.running, t.pc, t.fault)) =
    some (false, 0xFF, none) := by decide
/-- V71 and V74: an operand byte beyond the last cell. -/
theorem test_step_operand_out_of_range :
    (nextOf (step (engine [(0xFF, 0x47)] resetRegs 0xFF))).map (·.fault) = some (some ⟨.invalidAddress 256, 0xFF⟩) ∧
    (nextOf (step (engine [(0xFE, 0x82)] resetRegs 0xFE))).map (·.fault) = some (some ⟨.invalidAddress 256, 0xFE⟩) := by decide
/-- V80: zeroed memory, and V72's second step. -/
theorem test_step_fetch_faults :
    (nextOf (step (engine [] resetRegs 0))).map (·.fault) = some (some ⟨.invalidOpcode 0 0x00, 0⟩) ∧
    (nextOf (step (engine [] resetRegs 256))).map (·.fault) = some (some ⟨.invalidAddress 256, 256⟩) := by decide
/-- V96's store over the next instruction: the next step runs the new byte. -/
theorem test_step_sees_store :
    ((nextOf (step (engine [(6, 0x84), (7, 1), (9, 0x47)] #v[1, 9, 0, 0, 0, 0, 0, 0xF4] 6))).bind (fun t => nextOf (step t))).map
      (fun t => (t.running, t.pc, t.out)) = some (false, 9, []) := by decide
theorem test_step_stopped : faultOf (step State.reset) = some .stopped := by decide
theorem test_step_faulted : faultOf (step { engine [] resetRegs 0 with fault := some ⟨.invalidRegister 8, 0⟩ }) =
    some (.faulted ⟨.invalidRegister 8, 0⟩) := by decide
/-- The word of `LDI R0, 8` (R95) runs as the first instruction after reset. -/
theorem test_withFetchWord : (nextOf (step (State.reset.withFetchWord 24 0x080082))).map (fun t => (t.regs[0], t.pc)) =
    some (8, 3) := by decide
/-- P1 launched: the program is in memory, the engine Running. -/
theorem test_launch : (launch (params 256 .noop) [0x82, 0x00, 0x08, 0x47, 0x00, 0x01]).map (fun s => (s.mem, s.running)) =
    some ([(0, 0x82), (2, 0x08), (3, 0x47), (5, 0x01)], true) := by decide
theorem test_load_too_long : launch (params 1 .noop) [1, 1] = none := by decide
/-- Writing what an unlisted cell reads as removes the entry. -/
theorem test_memory_canonical : Memory.write [(1, 5), (3, 7)] 3 0 = [(1, 5)] ∧
    Memory.write [(1, 5), (3, 7)] 2 6 = [(1, 5), (2, 6), (3, 7)] := by decide

/-! ## Witnesses: the hypotheses of each statement, met together -/

/-- The eight register values used by the witnesses. -/
def regs1 : Vector Byte 8 := #v[0x15, 9, 0x80, 3, 0xFE, 0, 0xFF, 0xF4]

theorem witness_ResetMeetsStateInvariant : (params 256 .noop).Admitted ∧ (params 1 .bitwise).Admitted := by decide
theorem witness_StepKeepsStateInvariant :
    ∃ s t, s.Inv ∧ step s = .next t ∧ s.params.memSize = 256 :=
  ⟨engine [(0xFF, 1)] regs1 0xFF, _, ⟨by decide, by decide, by decide, by decide, by decide⟩, rfl, rfl⟩
theorem witness_LoadPlacesProgram : (State.resetWith (params 2 .noop)).engineState = .stopped ∧
    [1#8, 2#8].length ≤ (params 2 .noop).memSize ∧ (params 1 .noop).memSize < [1#8, 2#8].length ∧
    (engine [] regs1 0).engineState ≠ .stopped := by decide
theorem witness_RunStartsStoppedEngine : State.reset.engineState = .stopped ∧
    ({ engine [] regs1 0 with fault := some ⟨.invalidRegister 8, 0⟩ } : State).engineState = .faulted ∧
    (engine [] regs1 0).engineState = .running := by decide
theorem witness_LaunchState : [1#8].length ≤ (params 1 .noop).memSize := by decide
theorem witness_RerunExecutesSameHalt : ∃ s t, step s = .next t ∧ t.running = false :=
  ⟨engine [(0, 1)] regs1 0, _, rfl, rfl⟩
theorem witness_DecodeEncodeAgree : OpcodeMap.published.Injective := by decide
theorem witness_EncodeDecodeAgree : ∃ m bytes i rest, decode m bytes = .ok (i, rest) :=
  ⟨OpcodeMap.published, [0x84#8, 0xFF#8, 0x08#8, 0x01#8], .st 0xFF 0x08, [0x01#8], rfl⟩
theorem witness_IllegalOpcodesAre240 : OpcodeMap.published.Injective := by decide
theorem witness_DispatchTableImmutable :
    (∃ s t, step s = .next t) ∧ (∃ bytes s t, hostLoad bytes s = some t) ∧ (∃ s t, hostRun s = some t) ∧
      OpcodeMap.published.Injective ∧ (∀ o, OpcodeMap.published.byteOf o ≠ 0xFF) :=
  ⟨⟨engine [(0, 1)] regs1 0, _, rfl⟩, ⟨[1#8], State.reset, _, rfl⟩, ⟨State.reset, _, rfl⟩, by decide,
    fun o => by cases o <;> decide⟩
theorem witness_StepRunsDecodedInstruction :
    (engine [(0xFE, 0x45), (0xFF, 1)] regs1 0xFE).engineState = .running ∧ 0xFE + [0x45#8, 1#8].length ≤ 256 ∧
    (∀ (j : Nat) (h : j < [0x45#8, 1#8].length),
      (engine [(0xFE, 0x45), (0xFF, 1)] regs1 0xFE).mem.read (0xFE + j) = [0x45#8, 1#8][j]) ∧
    decode OpcodeMap.published [0x45#8, 1#8] = .ok (.push 1, []) :=
  ⟨rfl, by decide, by decide, rfl⟩
theorem witness_StepTakenIffRunning : (engine [] regs1 0).engineState = .running ∧
    State.reset.engineState = .stopped ∧
    ({ engine [] regs1 0 with fault := some ⟨.invalidRegister 8, 0⟩ } : State).fault = some ⟨.invalidRegister 8, 0⟩ := by
  decide
theorem witness_OpcodeFetch : (engine [] regs1 256).engineState = .running ∧ 256 ≤ (engine [] regs1 256).pc ∧
    (engine [] regs1 255).pc < 256 ∧ (∀ o, OpcodeMap.published.byteOf o ≠ (engine [] regs1 255).mem.read 255) ∧
    (∃ i, (engine [(255, 1)] regs1 255).fetch = .ok i) :=
  ⟨by decide, by decide, by decide, fun o => by cases o <;> decide, .hlt, rfl⟩
theorem witness_OpcodeLookup : (engine [] regs1 255).engineState = .running ∧
    OpcodeMap.published.lookup ((engine [] regs1 255).mem.read 255) = none ∧
    255 + Opcode.operandCount .hlt < 256 ∧
    OpcodeMap.published.lookup ((engine [(255, 1)] regs1 255).mem.read 255) = some .hlt := by decide
theorem witness_OperandFetch :
    OpcodeMap.published.lookup ((engine [(254, 0x82)] regs1 254).mem.read 254) = some .ldi ∧
    2 ≤ Opcode.operandCount .ldi ∧ 254 + 2 = (engine [(254, 0x82)] regs1 254).params.memSize ∧
    OpcodeMap.published.lookup ((engine [(253, 0x82)] regs1 253).mem.read 253) = some .ldi ∧
    253 + Opcode.operandCount .ldi + 1 = (engine [(253, 0x82)] regs1 253).params.memSize ∧
    (engine [(254, 0x82)] regs1 254).engineState = .running ∧ (engine [(253, 0x82)] regs1 253).engineState = .running := by
  decide
theorem witness_FaultsArePrecise : ∃ s t r, step s = .next t ∧ t.fault = some r ∧ ∃ i u, exec i s = .next u :=
  ⟨engine [] regs1 0, _, _, rfl, rfl, .hlt, _, rfl⟩
theorem witness_UnsupportedAluOperationNeverRaised :
    (∃ s t r, step s = .next t ∧ t.fault = some r) ∧
      ∃ (i : Instr) (s t : State) (r : FaultRecord), s.fault = none ∧ exec i s = .next t ∧ t.fault = some r :=
  ⟨⟨engine [] regs1 0, _, _, rfl, rfl⟩, .add 8 0, engine [] regs1 0, _, _, rfl, rfl, rfl⟩
/-- The operand bytes at the boundary of the index check, for every statement about register operands. -/
theorem witness_register_operands : (0#8).toNat < 8 ∧ (7#8).toNat < 8 ∧ 8 ≤ (8#8).toNat ∧ 8 ≤ (255#8).toNat := by decide
theorem witness_AddWrapsModulo256 : (7#8).toNat < 8 ∧ (0#8).toNat < 8 ∧ 8 ≤ (8#8).toNat := by decide
theorem witness_MulWrapsModulo256 : (7#8).toNat < 8 ∧ (0#8).toNat < 8 ∧ 8 ≤ (8#8).toNat := by decide
theorem witness_AndByMode : (engineOf 256 .noop [] regs1 0).params.andMode = .noop ∧
    (engineOf 256 .bitwise [] regs1 0).params.andMode = .bitwise ∧ (7#8).toNat < 8 ∧ 8 ≤ (8#8).toNat := by decide
theorem witness_CmpSetsAllFlags : (7#8).toNat < 8 ∧ (0#8).toNat < 8 ∧ 8 ≤ (8#8).toNat := by decide
theorem witness_JmpToRegister : (7#8).toNat < 8 ∧ 8 ≤ (8#8).toNat ∧
    (engineOf 128 .noop [] regs1 0).engineState = .running ∧
    (engineOf 128 .noop [] regs1 0).params.memSize ≤ (engineOf 128 .noop [] regs1 0).regs[(2#8).toNat].toNat ∧
    (nextOf (exec (.jmp 2) (engineOf 128 .noop [] regs1 0))).isSome := by decide
theorem witness_JeqBranchesOnEqual : ({ engine [] regs1 0 with flags := ⟨true, false, false⟩ } : State).flags.equal = true ∧
    (engine [] regs1 0).flags.equal = false ∧ (7#8).toNat < 8 ∧ 8 ≤ (8#8).toNat := by decide
theorem witness_JneBranchesOnNotEqual : (engine [] regs1 0).flags.equal = false ∧
    ({ engine [] regs1 0 with flags := ⟨true, false, false⟩ } : State).flags.equal = true ∧ (7#8).toNat < 8 ∧
    8 ≤ (8#8).toNat := by decide
theorem witness_CallPushesReturnAddress : (7#8).toNat < 8 ∧ (engine [] regs1 253).pc + 2 ≤ 255 ∧
    ((engine [] regs1 253).sp - 1).toNat < (engine [] regs1 253).params.memSize ∧ 8 ≤ (8#8).toNat ∧
    255 < (engine [] regs1 254).pc + 2 ∧
    (engineOf 0xF3 .noop [] regs1 0).params.memSize ≤ ((engineOf 0xF3 .noop [] regs1 0).sp - 1).toNat := by decide
theorem witness_RetPopsProgramCounter : (engineOf 0xF5 .noop [] regs1 0).sp.toNat < (engineOf 0xF5 .noop [] regs1 0).params.memSize ∧
    (engineOf 0xF4 .noop [] regs1 0).params.memSize ≤ (engineOf 0xF4 .noop [] regs1 0).sp.toNat := by decide
theorem witness_PushStoresBelowStackPointer : (7#8).toNat < 8 ∧ 8 ≤ (8#8).toNat ∧
    ((engineOf 0xF4 .noop [] regs1 0).sp - 1).toNat < (engineOf 0xF4 .noop [] regs1 0).params.memSize ∧
    (engineOf 0xF3 .noop [] regs1 0).params.memSize ≤ ((engineOf 0xF3 .noop [] regs1 0).sp - 1).toNat := by decide
theorem witness_PopReadsStackTop : (7#8).toNat < 8 ∧ 8 ≤ (8#8).toNat ∧
    (engineOf 0xF5 .noop [] regs1 0).sp.toNat < (engineOf 0xF5 .noop [] regs1 0).params.memSize ∧
    (engineOf 0xF4 .noop [] regs1 0).params.memSize ≤ (engineOf 0xF4 .noop [] regs1 0).sp.toNat := by decide
theorem witness_StackPointerWraps :
    (∃ (s t : State), s.fault = none ∧ t.fault = none ∧ exec (.push 0) s = .next t) ∧
    (∃ (s t : State), s.fault = none ∧ t.fault = none ∧ exec (.call 7) s = .next t) ∧
    (∃ (s t : State), s.fault = none ∧ t.fault = none ∧ exec (.pop 0) s = .next t ∧ (0#8) ≠ 7) ∧
    (∃ (s t : State), s.fault = none ∧ t.fault = none ∧ exec .ret s = .next t) ∧
    (∃ (s t : State), s.fault = none ∧ t.fault = none ∧ exec (.pop 7) s = .next t) ∧
    ((7#8).toNat < 8 ∧ (engine [] #v[0, 0, 0, 0, 0, 0, 0, 0] 253).sp = 0x00 ∧ 255 < (engine [] regs1 253).params.memSize ∧
      (engine [] regs1 253).pc + 2 ≤ 255) ∧
    (engine [] #v[0, 0, 0, 0, 0, 0, 0, 255] 0).sp = 0xFF ∧
    (engineOf 255 .noop [] #v[0, 0, 0, 0, 0, 0, 0, 0] 0).sp = 0x00 ∧
    (engineOf 255 .noop [] regs1 0).params.memSize ≤ 255 :=
  ⟨⟨engine [] #v[0, 0, 0, 0, 0, 0, 0, 0] 0, _, rfl, rfl, rfl⟩, ⟨engine [] regs1 0, _, rfl, rfl, rfl⟩,
    ⟨engine [] #v[0, 0, 0, 0, 0, 0, 0, 255] 0, _, rfl, rfl, rfl, by decide⟩, ⟨engine [] regs1 0, _, rfl, rfl, rfl⟩,
    ⟨engine [] regs1 0, _, rfl, rfl, rfl⟩, by decide, rfl, rfl, by decide⟩
theorem witness_RegisterSevenAsOperand : (0xF3#8) = (engine [] regs1 253).sp - 1 ∧
    (0xF3#8).toNat < (engine [] regs1 253).params.memSize ∧
    (engine [] regs1 253).sp.toNat < (engine [] regs1 253).params.memSize ∧
    (0#8) = (engine [] regs1 253).mem.read (engine [] regs1 253).sp.toNat ∧ (engine [] regs1 253).pc + 2 ≤ 255 := by decide
theorem witness_LdiLoadsImmediate : (7#8).toNat < 8 ∧ 8 ≤ (8#8).toNat := by decide
theorem witness_StStoresRegister : (2#8).toNat < 8 ∧ (0#8).toNat < 8 ∧ 8 ≤ (8#8).toNat ∧
    (engineOf 129 .noop [] regs1 0).regs[(2#8).toNat].toNat < (engineOf 129 .noop [] regs1 0).params.memSize ∧
    (engineOf 128 .noop [] regs1 0).params.memSize ≤ (engineOf 128 .noop [] regs1 0).regs[(2#8).toNat].toNat := by decide
theorem witness_PrnEmitsRegister : (7#8).toNat < 8 ∧ 8 ≤ (8#8).toNat := by decide
theorem witness_PraEmitsCharacter : (7#8).toNat < 8 ∧ 8 ≤ (8#8).toNat := by decide
theorem witness_HltStopsEngine : ∃ s t : State, s.fault = none ∧ exec .hlt s = .next t :=
  ⟨engine [] regs1 0, _, rfl, rfl⟩
theorem witness_RegisterFrame :
    (∃ s t, Instr.add 7 0 ∈ [Instr.add 7 0, .mul 7 0, .and 7 0, .ldi 7 0] ∧ exec (.add 7 0) s = .next t ∧ (0 : Nat) ≠ (7#8).toNat) ∧
    (∃ s t, Instr.ret ∈ [Instr.call 0, .ret, .push 0] ∧ exec .ret s = .next t) ∧
    (∃ s t, exec (.pop 0) s = .next t ∧ (6 : Nat) ≠ (0#8).toNat) ∧
    (∃ s t, Instr.hlt ∈ [Instr.cmp 0 0, .jmp 0, .jeq 0, .jne 0, .st 0 0, .prn 0, .pra 0, .hlt] ∧ exec .hlt s = .next t) :=
  ⟨⟨engine [] regs1 0, _, by decide, rfl, by decide⟩, ⟨engine [] regs1 0, _, by decide, rfl⟩,
    ⟨engine [] regs1 0, _, rfl, by decide⟩, ⟨engine [] regs1 0, _, by decide, rfl⟩⟩
theorem witness_FlagsWrittenOnlyByCmp : ∃ (i : Instr) (s t : State), (∀ a b, i ≠ .cmp a b) ∧ exec i s = .next t :=
  ⟨.add 0 1, engine [] regs1 0, _, fun _ _ h => (nomatch h), rfl⟩
theorem witness_MemoryUnchangedByNonStores : ∃ (i : Instr) (s t : State),
    (∀ a b, i ≠ .st a b) ∧ (∀ a, i ≠ .push a) ∧ (∀ a, i ≠ .call a) ∧ exec i s = .next t :=
  ⟨.pop 0, engine [] regs1 0, _, fun _ _ h => (nomatch h), fun _ h => (nomatch h), fun _ h => (nomatch h), rfl⟩
theorem witness_StoresTouchOneCell :
    (∃ s t, exec (.st 2 0) s = .next t ∧ ∀ ea, s.readReg 2 = .ok ea → 0 ≠ ea.toNat) ∧
    (∃ s t, Instr.call 0 ∈ [Instr.push 0, .call 0] ∧ exec (.call 0) s = .next t ∧ 0 ≠ (s.sp - 1).toNat) ∧
    (∃ s t, s.fault = none ∧ exec (.st 8 0) s = .next t ∧ t.fault ≠ none) :=
  ⟨⟨engine [] regs1 0, _, rfl, fun ea h => by cases h; decide⟩, ⟨engine [] regs1 0, _, by decide, rfl, by decide⟩,
    ⟨engine [] regs1 0, _, rfl, rfl, by decide⟩⟩
theorem witness_RunningWrittenOnlyByHltAndRun :
    (∃ (i : Instr) (s t : State), i ≠ .hlt ∧ exec i s = .next t) ∧ ∃ bytes s t, hostLoad bytes s = some t :=
  ⟨⟨.ret, engine [] regs1 0, _, by decide, rfl⟩, [1#8], State.reset, _, rfl⟩
theorem witness_OutputOnlyGrows :
    (∃ (i : Instr) (s t : State), (∀ a, i ≠ .prn a) ∧ (∀ a, i ≠ .pra a) ∧ exec i s = .next t) ∧
    (∃ s t, step s = .next t ∧ t.out ≠ s.out) ∧ (∃ s t, step s = .next t ∧ t.fault ≠ none) :=
  ⟨⟨.ret, engine [] regs1 0, _, fun _ h => (nomatch h), fun _ h => (nomatch h), rfl⟩,
    ⟨engine [(0, 0x47)] regs1 0, _, rfl, by decide⟩, ⟨engine [] regs1 0, _, rfl, by decide⟩⟩
theorem witness_ProgramCounterUpdates :
    (∃ s t : State, s.fault = none ∧ exec (.pop 0) s = .next t ∧ t.fault = none) ∧
    (∃ s t : State, exec .hlt s = .next t) ∧
    (∃ s t : State, s.fault = none ∧ exec (.call 0) s = .next t ∧ t.fault = none) ∧
    (∃ s t : State, s.fault = none ∧ exec (.jeq 8) s = .next t ∧ t.fault = none) :=
  ⟨⟨engine [] regs1 255, _, rfl, rfl, rfl⟩, ⟨engine [] regs1 0, _, rfl⟩, ⟨engine [] regs1 253, _, rfl, rfl, rfl⟩,
    ⟨engine [] regs1 0, _, rfl, rfl, rfl⟩⟩
theorem witness_OnlyEqualFlagIsRead :
    (∃ (i : Instr) (s t : State), (∀ a, i ≠ .jeq a) ∧ (∀ a, i ≠ .jne a) ∧ exec i s = .next t) ∧
    (∃ (s t : State) (f : Flags), f.equal = s.flags.equal ∧ f ≠ s.flags ∧ exec (.jeq 0) s = .next t) :=
  ⟨⟨.cmp 0 1, engine [] regs1 0, _, fun _ h => (nomatch h), fun _ h => (nomatch h), rfl⟩,
    ⟨engine [] regs1 0, _, ⟨false, true, true⟩, rfl, by decide, rfl⟩⟩
theorem witness_UnnamedRegistersAreInert : ∃ (s t : State), (∀ a ∈ (Instr.push 4).registerOperands, a.toNat ≠ 5) ∧
    exec (.push 4) s = .next t :=
  ⟨engine [] regs1 0, _, by decide, rfl⟩
theorem witness_StoreSeenByNextFetch :
    (engineOf 129 .noop [] regs1 0).regs[(2#8).toNat].toNat < (engineOf 129 .noop [] regs1 0).params.memSize ∧
    (6#8).toNat < 7 ∧ ((engineOf 0xF4 .noop [] regs1 253).sp - 1).toNat < (engineOf 0xF4 .noop [] regs1 253).params.memSize ∧
    (engineOf 0xF4 .noop [] regs1 253).pc + 2 ≤ 255 ∧
    (engine [] regs1 0).pc = (engine [(9, 1)] resetRegs 0).pc ∧
    (∀ j, j ≤ 2 → (engine [] regs1 0).mem.read (0 + j) = (engine [(9, 1)] resetRegs 0).mem.read (0 + j)) := by
  refine ⟨by decide, by decide, by decide, by decide, rfl, fun j hj => ?_⟩
  interval_cases j <;> rfl
theorem witness_DataAddressesAlwaysValidAt256 : ∃ (s t : State), s.params.memSize = 256 ∧ s.fault = none ∧
    exec (.call 0) s = .next t ∧ t.fault = some ⟨.invalidAddress 256, 254⟩ :=
  ⟨engine [] regs1 254, _, rfl, rfl, rfl, rfl⟩
theorem witness_InvalidRegisterNamesAnOperand :
    (∃ (s t : State), s.fault = none ∧ exec (.st 7 8) s = .next t ∧ t.fault = some ⟨.invalidRegister 8, 0⟩) ∧
    (∃ (s t : State), (Instr.st 7 0).wellFormed = true ∧ s.fault = none ∧ exec (.st 7 0) s = .next t) :=
  ⟨⟨engine [] regs1 0, _, rfl, rfl, rfl⟩, ⟨engine [] regs1 0, _, rfl, rfl, rfl⟩⟩
/-- The state between: CALL's next state itself, with the Stack Pointer and the cell as CALL left them. -/
theorem witness_CallReturnLaw : ∃ (s t u : State), s.fault = none ∧ exec (.call 1) s = .next t ∧ t.fault = none ∧
    u.params = s.params ∧ u.sp = s.sp - 1 ∧ u.mem.read (s.sp - 1).toNat = t.mem.read (s.sp - 1).toNat :=
  ⟨engine [] regs1 253, _, (engine [(0xF3, 0xFF)] #v[0, 0, 0, 0, 0, 0, 0, 0xF3] 7), rfl, rfl, rfl, rfl, rfl, rfl⟩
theorem witness_PushPopLaw : (6#8).toNat < 7 ∧ (0#8).toNat < 7 ∧
    ((engineOf 0xF4 .noop [] regs1 0).sp - 1).toNat < (engineOf 0xF4 .noop [] regs1 0).params.memSize := by decide
theorem witness_CompareBranchLaw : ∃ (s t u : State), exec (.cmp 0 7) s = .next t ∧ u.flags.equal = t.flags.equal ∧
    (0#8).toNat < 8 ∧ (7#8).toNat < 8 :=
  ⟨engine [] regs1 0, _, engine [] resetRegs 9, rfl, rfl, by decide, by decide⟩
theorem witness_OnlyHaltEndsRun : ∃ s t, step s = .next t ∧ t.running = false :=
  ⟨engine [(0xFF, 1)] regs1 0xFF, _, rfl, rfl⟩
/-- V49: a jump to its own address, the program of the loop witness. -/
def loopState : State := engine [(3, 0x54)] #v[3, 0, 0, 0, 0, 0, 0, 0xF4] 3
theorem test_loop_runs_forever : RunsForever loopState := runsForever_of_loop rfl rfl
/-- No run was started: State.reset is no successful end and a Faulted state no failure (R121). -/
theorem test_no_end_without_a_step :
    ¬ EndsSuccessfully State.reset 0 State.reset ∧
    ¬ Fails { engine [] regs1 0 with fault := some ⟨.invalidRegister 8, 0⟩ } 0
      { engine [] regs1 0 with fault := some ⟨.invalidRegister 8, 0⟩ } :=
  ⟨fun h => absurd h.2.1 (by decide), fun h => absurd h.2.1 (by decide)⟩
/-- A Running engine whose run halts, one whose run faults and one whose run never ends: V104, V80, V49. -/
theorem witness_RunHaltsFaultsOrRunsForever :
    ((engine [(0, 1)] regs1 0).engineState = .running ∧ ∃ t, EndsSuccessfully (engine [(0, 1)] regs1 0) 1 t) ∧
    ((engine [] regs1 0).engineState = .running ∧ ∃ t, Fails (engine [] regs1 0) 1 t) ∧
    (loopState.engineState = .running ∧ RunsForever loopState) :=
  ⟨⟨rfl, _, rfl, by decide, rfl, rfl, rfl⟩, ⟨rfl, _, rfl, by decide, rfl, by decide⟩, rfl, test_loop_runs_forever⟩
theorem witness_EndedRunsAreHaltsOrFaults :
    (∃ s t, EndsSuccessfully s 1 t) ∧ (∃ s t, Fails s 1 t) :=
  ⟨⟨engine [(0xFF, 1)] regs1 0xFF, _, rfl, by decide, rfl, rfl, rfl⟩, ⟨engine [] regs1 256, _, rfl, by decide, rfl, by decide⟩⟩

end Sys2Proof.Tests
end

section
/-! PROOFS. What a handler's computation guarantees of the state it answers, part by part, and with it that the
construction parameters, the dispatch table among them, are changed by nothing (R38). -/

namespace Sys2Proof.Machine

/-! ## What a computation guarantees when it succeeds -/

/-- Whatever the computation answers meets `P`; one that raises a fatal error meets every `P`. -/
def Ensures {α : Type} (P : α → Prop) (r : Except FaultKind α) : Prop := ∀ x, r = .ok x → P x

@[simp] theorem ensures_ok {α : Type} {P : α → Prop} {x : α} : Ensures P (.ok x) ↔ P x := by
  simp [Ensures]

@[simp] theorem ensures_error {α : Type} {P : α → Prop} (k : FaultKind) : Ensures P (.error k) := by
  simp [Ensures]

/-- In a sequence the rest may rely on what the first part guarantees. -/
theorem Ensures.bind {α β : Type} {P : α → Prop} {Q : β → Prop} {x : Except FaultKind α}
    {f : α → Except FaultKind β} (hx : Ensures P x) (hf : ∀ a, P a → Ensures Q (f a)) : Ensures Q (x >>= f) := by
  intro b h
  obtain ⟨a, ha, hb⟩ := except_bind_eq_ok h
  exact hf a (hx a ha) b hb

/-- In a sequence the rest may guarantee it alone, whatever value the first part answers. -/
theorem ensures_bind_of_forall {α β : Type} {Q : β → Prop} {x : Except FaultKind α} {f : α → Except FaultKind β}
    (hf : ∀ a, Ensures Q (f a)) : Ensures Q (x >>= f) :=
  Ensures.bind (P := fun _ => True) (fun _ _ => trivial) fun a _ => hf a

/-- A committed handler's next state meets what the computation guarantees, if fault entry meets it too. -/
theorem commit_next_of_ensures {P : State → Prop} {s t : State} {r : Except FaultKind State}
    (h : commit s r = .next t) (hk : ∀ k, P (s.takeFault k)) (hr : Ensures P r) : P t := by
  rcases commit_cases s h with hok | ⟨k, -, rfl⟩
  · exact hr t hok
  · exact hk k

/-! ## The shared operations keep the parameters -/

/-- The engine was constructed with the parameters `p` (R6). -/
def State.HasParams (p : Params) (s : State) : Prop := s.params = p

section
variable {p : Params} {s : State} (hs : s.HasParams p)
include hs

theorem writeReg_ensures_hasParams (a v : Byte) : Ensures (State.HasParams p) (s.writeReg a v) := by
  rcases Nat.lt_or_ge a.toNat 8 with ha | ha
  · rw [s.writeReg_of_lt v ha]
    exact ensures_ok.2 hs
  · rw [s.writeReg_of_ge v ha]
    exact ensures_error _

theorem memWrite_ensures_hasParams (a : Nat) (v : Byte) : Ensures (State.HasParams p) (s.memWrite a v) := by
  rcases Nat.lt_or_ge a s.params.memSize with ha | ha
  · rw [s.memWrite_of_lt v ha]
    exact ensures_ok.2 hs
  · rw [s.memWrite_of_ge v ha]
    exact ensures_error _

theorem push_ensures_hasParams (value : State → Except FaultKind Byte) :
    Ensures (State.HasParams p) (s.push value) := by
  rw [s.push_eq]
  exact ensures_bind_of_forall fun v => memWrite_ensures_hasParams (s := s.setSp _) hs _ v

/-- What JMP and the taken branches do: read the target and jump. -/
theorem jump_ensures_hasParams (a : Byte) :
    Ensures (State.HasParams p) (s.readReg a >>= fun t => pure (s.jump t)) :=
  ensures_bind_of_forall fun _ => ensures_ok.2 hs

end

/-- A pop keeps the parameters when its destination does. -/
theorem pop_ensures_hasParams {p : Params} {s : State}
    {dest : Byte → State → Except FaultKind State} (hd : ∀ v, Ensures (State.HasParams p) (dest v s)) :
    Ensures (State.HasParams p) (s.pop dest) :=
  ensures_bind_of_forall fun v => (hd v).bind fun _ hu => ensures_ok.2 hu

/-- The `pc <- pc + 1 + k` that ends most handlers (R116) keeps the parameters. -/
theorem Ensures.hasParams_then_advance {p : Params} {x : Except FaultKind State}
    (hx : Ensures (State.HasParams p) x) (k : Nat) :
    Ensures (State.HasParams p) (x >>= fun u => pure (u.advance k)) :=
  hx.bind fun _ hu => ensures_ok.2 hu

/-! ## Every handler, every step and every host event keeps the parameters -/

/-- A committed handler keeps the parameters when its computation does: fault entry keeps them. -/
theorem commit_params {s t : State} {r : Except FaultKind State} (h : commit s r = .next t)
    (hr : Ensures (State.HasParams s.params) r) : t.params = s.params :=
  commit_next_of_ensures (P := State.HasParams s.params) h s.takeFault_params hr

/-- No handler changes the parameters (R38). -/
theorem exec_params {i : Instr} {s t : State} (h : exec i s = .next t) : t.params = s.params := by
  have hs : s.HasParams s.params := rfl
  cases i with
  | add a b | mul a b =>
    exact commit_params h (ensures_bind_of_forall fun (_, _) =>
      (writeReg_ensures_hasParams hs a _).hasParams_then_advance 2)
  | and a b =>
    refine commit_params h ?_
    split
    · exact (writeReg_ensures_hasParams hs a _).hasParams_then_advance 2
    · split
      · exact ensures_ok.2 hs
      · exact ensures_error _
  | cmp a b => exact commit_params h (ensures_bind_of_forall fun (_, _) => ensures_ok.2 hs)
  | jmp a => exact commit_params h (jump_ensures_hasParams hs a)
  | jeq a =>
    refine commit_params h ?_
    split
    · exact jump_ensures_hasParams hs a
    · exact ensures_ok.2 hs
  | jne a =>
    refine commit_params h ?_
    split
    · exact ensures_ok.2 hs
    · exact jump_ensures_hasParams hs a
  | call a =>
    exact commit_params h (ensures_bind_of_forall fun _ => ensures_bind_of_forall fun _ =>
      (push_ensures_hasParams hs _).bind fun _ hu => jump_ensures_hasParams hu a)
  | ret => exact commit_params h (pop_ensures_hasParams fun _ => ensures_ok.2 hs)
  | push a =>
    exact commit_params h (ensures_bind_of_forall fun _ =>
      (push_ensures_hasParams hs _).hasParams_then_advance 1)
  | pop a =>
    exact commit_params h (ensures_bind_of_forall fun _ =>
      (pop_ensures_hasParams fun v => writeReg_ensures_hasParams hs a v).hasParams_then_advance 1)
  | ldi a imm => exact commit_params h ((writeReg_ensures_hasParams hs a imm).hasParams_then_advance 2)
  | st a b =>
    exact commit_params h (ensures_bind_of_forall fun (_, _) =>
      (memWrite_ensures_hasParams hs _ _).hasParams_then_advance 2)
  | prn a | pra a => exact commit_params h (ensures_bind_of_forall fun _ => ensures_ok.2 hs)
  | hlt => exact commit_params h (ensures_ok.2 hs)

/-- No step changes the parameters: neither a handler nor the fault entry of a failed fetch does (R38). -/
theorem step_params {s t : State} (h : step s = .next t) : t.params = s.params := by
  obtain ⟨-, -, ⟨i, -, hi⟩ | ⟨k, -, rfl⟩⟩ := step_cases s h
  · exact exec_params hi
  · exact s.takeFault_params k

/-- Everything a Load can do: it is taken only on a Stopped engine the bytes fit into, and changes memory alone (R261). -/
theorem hostLoad_eq_some {bytes : List Byte} {s t : State} (h : hostLoad bytes s = some t) :
    s.engineState = .stopped ∧ bytes.length ≤ s.params.memSize ∧
      t = { s with mem := s.mem.writeBytes loadBase bytes } := by
  unfold hostLoad at h
  split at h
  · next hc => exact ⟨hc.1, hc.2, (Option.some.inj h).symm⟩
  · cases h

/-- Everything a Run can do: it starts a Stopped engine, and leaves a Faulted one as it is (R262). -/
theorem hostRun_eq_some {s t : State} (h : hostRun s = some t) :
    (s.engineState = .stopped ∧ t = s.setRunning true) ∨ (s.engineState = .faulted ∧ t = s) := by
  unfold hostRun at h
  cases hs : s.engineState with
  | stopped => rw [hs] at h; exact .inl ⟨rfl, (Option.some.inj h).symm⟩
  | faulted => rw [hs] at h; exact .inr ⟨rfl, (Option.some.inj h).symm⟩
  | running => rw [hs] at h; cases h

theorem hostLoad_params {bytes : List Byte} {s t : State} (h : hostLoad bytes s = some t) : t.params = s.params := by
  obtain ⟨-, -, rfl⟩ := hostLoad_eq_some h
  rfl

theorem hostRun_params {s t : State} (h : hostRun s = some t) : t.params = s.params := by
  rcases hostRun_eq_some h with ⟨-, rfl⟩ | ⟨-, rfl⟩
  · exact s.setRunning_params true
  · rfl

/-! ## The obligation -/

/-- The column `k` of the dispatch table (R86), by the labels that have two operands and those that have none. -/
theorem operandCount_eq (o : Opcode) : o.operandCount =
    if o ∈ [Opcode.add, .mul, .and, .cmp, .ldi, .st] then 2 else if o ∈ [Opcode.ret, .hlt] then 0 else 1 := by
  cases o <;> rfl

/-- Settles O12: the parameters are kept by every handler, by fault entry and by both host events; the content is what
the laws of the lookup say. -/
theorem dispatchTableImmutable : Obligations.DispatchTableImmutable :=
  ⟨fun _ _ => step_params, fun _ _ _ => hostLoad_params, fun _ _ => hostRun_params,
    fun _ hm => OpcodeMap.lookup_byteOf hm, fun _ _ => OpcodeMap.lookup_eq_none.2, operandCount_eq⟩

end Sys2Proof.Machine
end

section
/-! PROOFS. The fetch, branch by branch (R112 to R114), and the obligations about what a step fetches and runs. -/

namespace Sys2Proof

/-! ## The decoder over a source of bytes -/

/-- Byte number `index` of a list, when there is one. -/
theorem byteAt_eq_ok {bytes : List Byte} {index : Nat} {b : Byte} :
    byteAt bytes index = .ok b ↔ ∃ h : index < bytes.length, bytes[index] = b := by
  rw [← List.getElem?_eq_some_iff]
  unfold byteAt
  cases bytes[index]? <;> simp

/-- A source that gives every byte that another one gives decodes to the same instruction. -/
theorem decodeFrom_ok_of_reads {ε ε' : Type} {m : OpcodeMap} {read : Nat → Except ε Byte} {read' : Nat → Except ε' Byte}
    {unknown : Byte → ε} {unknown' : Byte → ε'} {i : Instr} (h : decodeFrom m read unknown = .ok i)
    (hr : ∀ j b, read j = .ok b → read' j = .ok b) : decodeFrom m read' unknown' = .ok i := by
  obtain ⟨op, hop, hl, hops⟩ := decodeFrom_eq_ok.1 h
  exact decodeFrom_eq_ok.2 ⟨op, hr 0 op hop, hl, fun j hj => hr (1 + j) _ (hops j hj)⟩

/-- What `decode` answers is what the decoder reads from the list. -/
theorem decodeFrom_byteAt_of_decode {m : OpcodeMap} {bytes rest : List Byte} {i : Instr}
    (h : decode m bytes = .ok (i, rest)) : decodeFrom m (byteAt bytes) .unknownOpcode = .ok i := by
  unfold decode at h
  split at h
  · next hi => cases h; exact hi
  · cases h

/-- Reading consecutive bytes fails as the first read that fails does (R114, R118). -/
theorem readBytes_eq_error_of_first {ε : Type} {read : Nat → Except ε Byte} {e : ε} {start j k : Nat} (hjk : j < k)
    (hok : ∀ i, i < j → ∃ b, read (start + i) = .ok b) (he : read (start + j) = .error e) :
    readBytes read start k = .error e := by
  induction j generalizing start k with
  | zero =>
    cases k with
    | zero => omega
    | succ k => simp [readBytes, show read start = .error e from he]
  | succ j ih =>
    cases k with
    | zero => omega
    | succ k =>
      obtain ⟨b, hb⟩ := hok 0 (by omega)
      have hrest : readBytes read (start + 1) k = .error e := by
        refine ih (by omega) (fun i hi => ?_) ?_
        · rw [show start + 1 + i = start + (i + 1) by omega]
          exact hok (i + 1) (by omega)
        · rwa [show start + 1 + j = start + (j + 1) by omega]
      simp [readBytes, show read start = .ok b from hb, hrest]

/-- A label and as many bytes as its row asks for make an instruction. -/
theorem Opcode.exists_instr_of_operands (o : Opcode) {bs : List Byte} (h : bs.length = o.operandCount) :
    ∃ i : Instr, i.opcode = o ∧ i.operands = bs :=
  ⟨_, o.opcode_toInstr _ _, o.operands_toInstr bs h⟩

end Sys2Proof

namespace Sys2Proof.Machine

variable (s : State)

/-! ## The fetch, one equation per branch -/

/-- A read that fails raises `InvalidAddress` of the address read (R53). -/
theorem State.memRead_eq_error {a : Nat} {k : FaultKind} (h : s.memRead a = .error k) : k = .invalidAddress a := by
  rcases Nat.lt_or_ge a s.params.memSize with ha | ha
  · rw [s.memRead_of_lt ha] at h
    cases h
  · rw [s.memRead_of_ge ha] at h
    cases h
    rfl

/-- No cell at the Program Counter (R112). -/
theorem State.fetch_of_pc_ge (h : s.params.memSize ≤ s.pc) : s.fetch = .error (.invalidAddress s.pc) := by
  simp [State.fetch, decodeFrom, s.memRead_of_ge h]

/-- The byte at the Program Counter is in no row of the table (R113). -/
theorem State.fetch_of_lookup_none (h : s.pc < s.params.memSize)
    (hl : s.params.opcodeMap.lookup (s.mem.read s.pc) = none) :
    s.fetch = .error (.invalidOpcode s.pc (s.mem.read s.pc)) := by
  simp [State.fetch, decodeFrom, s.memRead_of_lt h, hl]

/-- The byte at the Program Counter has a row: its operand bytes are read from the next cell upward (R114). -/
theorem State.fetch_of_lookup_some {o : Opcode} (h : s.pc < s.params.memSize)
    (hl : s.params.opcodeMap.lookup (s.mem.read s.pc) = some o) :
    s.fetch = (readBytes (fun j => s.memRead (s.pc + j)) 1 o.operandCount >>= fun bs =>
      .ok (o.toInstr (bs.getD 0 0) (bs.getD 1 0))) := by
  simp [State.fetch, decodeFrom, s.memRead_of_lt h, hl]

/-- The operand byte number `j` is the first without a cell (R114). -/
theorem State.fetch_of_operand_at_memSize {o : Opcode} {j : Nat}
    (hl : s.params.opcodeMap.lookup (s.mem.read s.pc) = some o)
    (hj : 1 ≤ j) (hjk : j ≤ o.operandCount) (hN : s.pc + j = s.params.memSize) :
    s.fetch = .error (.invalidAddress (s.pc + j)) := by
  have hfail : readBytes (fun j => s.memRead (s.pc + j)) 1 o.operandCount = .error (.invalidAddress (s.pc + j)) := by
    refine readBytes_eq_error_of_first (j := j - 1) (by omega) (fun i hi => ⟨_, s.memRead_of_lt (by omega)⟩) ?_
    rw [show s.pc + (1 + (j - 1)) = s.pc + j by omega]
    exact s.memRead_of_ge hN.ge
  rw [s.fetch_of_lookup_some (by omega) hl, hfail, except_bind_error]

/-- The byte at the Program Counter has a row and all its operand bytes exist (R113, R114). -/
theorem State.fetch_ok_of_lookup_some {o : Opcode} (hN : s.pc + o.operandCount < s.params.memSize)
    (hl : s.params.opcodeMap.lookup (s.mem.read s.pc) = some o) :
    ∃ i : Instr, i.opcode = o ∧ i.operands = (List.range o.operandCount).map (fun j => s.mem.read (s.pc + 1 + j)) ∧
      s.fetch = .ok i := by
  obtain ⟨i, rfl, hops⟩ := o.exists_instr_of_operands
    (bs := (List.range o.operandCount).map (fun j => s.mem.read (s.pc + 1 + j))) (by simp)
  exact ⟨i, rfl, hops, s.fetch_eq_ok.2 ⟨hl, hN, by simp [hops]⟩⟩

/-- A fetch that fails although the opcode byte has a cell raises `InvalidOpcode`, or `InvalidAddress` of an operand
byte (R113, R114). -/
theorem State.fetch_eq_error {k : FaultKind} (h : s.pc < s.params.memSize) (hk : s.fetch = .error k) :
    k = .invalidOpcode s.pc (s.mem.read s.pc) ∨ ∃ j, 1 ≤ j ∧ k = .invalidAddress (s.pc + j) := by
  cases hl : s.params.opcodeMap.lookup (s.mem.read s.pc) with
  | none =>
    rw [s.fetch_of_lookup_none h hl] at hk
    cases hk
    exact .inl rfl
  | some o =>
    rw [s.fetch_of_lookup_some h hl] at hk
    rcases except_bind_eq_error hk with hbs | ⟨bs, -, hbs⟩
    · obtain ⟨j, hj, hread⟩ := readBytes_eq_error hbs
      exact .inr ⟨j, hj, s.memRead_eq_error hread⟩
    · cases hbs

/-! ## The step of a Running engine -/

variable {s}

theorem step_of_running_of_fetch {i : Instr} (h : s.engineState = .running) (hi : s.fetch = .ok i) :
    step s = exec i s := by
  obtain ⟨hf, hr⟩ := s.engineState_eq_running.1 h
  exact step_of_fetch s hf hr hi

theorem step_of_running_of_fetch_error {k : FaultKind} (h : s.engineState = .running) (hk : s.fetch = .error k) :
    step s = .next (s.takeFault k) := by
  obtain ⟨hf, hr⟩ := s.engineState_eq_running.1 h
  exact step_of_fetch_error s hf hr hk

/-- Only a Running engine takes a step (R111). -/
theorem running_of_step {t : State} (h : step s = .next t) : s.engineState = .running := by
  obtain ⟨hf, hr, -⟩ := step_cases s h
  exact s.engineState_eq_running.2 ⟨hf, hr⟩

/-- A Running engine always takes its next step (R273). -/
theorem step_next_of_running (h : s.engineState = .running) : ∃ t, step s = .next t := by
  cases hfetch : s.fetch with
  | ok i => rw [step_of_running_of_fetch h hfetch]; exact exec_next s i
  | error k => exact ⟨_, step_of_running_of_fetch_error h hfetch⟩

/-! ## The obligations -/

/-- Settles O13: memory from `pc` upward gives every byte that the list gives, so the fetch decodes what the list
decodes to. -/
theorem stepRunsDecodedInstruction : Obligations.StepRunsDecodedInstruction := by
  intro s bytes i hrun hlen hmem hdec
  refine step_of_running_of_fetch hrun (decodeFrom_ok_of_reads (decodeFrom_byteAt_of_decode hdec) fun j b hb => ?_)
  obtain ⟨hj, rfl⟩ := byteAt_eq_ok.1 hb
  rw [s.memRead_of_lt (by omega), hmem j hj]

/-- Settles O14: a step is taken only in the Running state, and there the fetched instruction or fault entry answers a
next state. -/
theorem stepTakenIffRunning : Obligations.StepTakenIffRunning := by
  refine ⟨fun s => ⟨fun ⟨_, h⟩ => running_of_step h, step_next_of_running⟩, fun s h => ?_, fun s _ => step_of_fault s⟩
  obtain ⟨hf, hr⟩ := s.engineState_eq_stopped.1 h
  exact step_of_stopped s hf hr

/-- Settles O15, by the branches of the fetch: a failing fetch below `N` reports an operand address, which is above
`pc`. -/
theorem opcodeFetch : Obligations.OpcodeFetch := by
  refine ⟨fun s hrun hN => step_of_running_of_fetch_error hrun (s.fetch_of_pc_ge hN), fun s hN =>
    ⟨s.memRead_of_lt hN, fun i hi => ?_, fun hno => ?_, fun hbad => ?_⟩⟩
  · obtain ⟨hl, -, -⟩ := s.fetch_eq_ok.1 hi
    exact OpcodeMap.byteOf_of_lookup hl
  · exact s.fetch_of_lookup_none hN (OpcodeMap.lookup_eq_none.2 hno)
  · rcases s.fetch_eq_error hN hbad with h | ⟨j, hj, h⟩
    · cases h
    · have : s.pc = s.pc + j := FaultKind.invalidAddress.inj h
      omega

/-- Settles O16, by the two branches of the lookup. -/
theorem opcodeLookup : Obligations.OpcodeLookup := by
  refine ⟨fun s hrun hN hl => step_of_running_of_fetch_error hrun (s.fetch_of_lookup_none hN hl),
    fun s o hrun hN hl => ?_⟩
  obtain ⟨i, hop, hops, hi⟩ := s.fetch_ok_of_lookup_some hN hl
  exact ⟨i, hop, hops, step_of_running_of_fetch hrun hi⟩

/-- Settles O17: the operand reads end at the first address without a cell, and none is made past the last operand. -/
theorem operandFetch : Obligations.OperandFetch := by
  refine ⟨fun s o j hrun hl hj hjk hN =>
    step_of_running_of_fetch_error hrun (s.fetch_of_operand_at_memSize hl hj hjk hN), fun s o hrun hl hN => ?_⟩
  obtain ⟨i, hop, -, hi⟩ := s.fetch_ok_of_lookup_some (by omega) hl
  exact ⟨i, hop, step_of_running_of_fetch hrun hi⟩

end Sys2Proof.Machine
end

section
/-! PROOFS. What a step does to the running flag and the latch: it keeps both, or it is an HLT, or it enters a fault
(R36, R37, R121); and the obligations about HLT. -/

namespace Sys2Proof.Machine

/-! ## What a shared operation guarantees, by what it can change -/

/-- A register write changes the register file only. -/
theorem writeReg_ensures {P : State → Prop} {s : State} (hP : ∀ regs, P { s with regs := regs }) (a v : Byte) :
    Ensures P (s.writeReg a v) := by
  rcases Nat.lt_or_ge a.toNat 8 with ha | ha
  · rw [s.writeReg_of_lt v ha]
    exact ensures_ok.2 (hP _)
  · rw [s.writeReg_of_ge v ha]
    exact ensures_error _

/-- A store changes memory only. -/
theorem memWrite_ensures {P : State → Prop} {s : State} (hP : ∀ mem, P { s with mem := mem }) (a : Nat) (v : Byte) :
    Ensures P (s.memWrite a v) := by
  rcases Nat.lt_or_ge a s.params.memSize with ha | ha
  · rw [s.memWrite_of_lt v ha]
    exact ensures_ok.2 (hP _)
  · rw [s.memWrite_of_ge v ha]
    exact ensures_error _

/-- A push changes the register file and memory only. -/
theorem push_ensures {P : State → Prop} {s : State} (hP : ∀ regs mem, P { s with regs := regs, mem := mem })
    (value : State → Except FaultKind Byte) : Ensures P (s.push value) := by
  rw [s.push_eq]
  exact ensures_bind_of_forall fun v => memWrite_ensures (s := s.setSp _) (hP _) _ v

/-- After its destination a pop changes the register file only. -/
theorem pop_ensures {P Q : State → Prop} {s : State} {dest : Byte → State → Except FaultKind State}
    (hd : ∀ v, Ensures P (dest v s)) (hQ : ∀ u regs, P u → Q { u with regs := regs }) : Ensures Q (s.pop dest) :=
  ensures_bind_of_forall fun v => (hd v).bind fun u hu => ensures_ok.2 (hQ u _ hu)

/-! ## Every handler but HLT's keeps the running flag and the latch, or enters a fault -/

/-- `t` has the running flag and the latch of `s`: the two fields that the engine state is read from (R39). -/
def State.SameEngine (s t : State) : Prop := t.running = s.running ∧ t.fault = s.fault

theorem State.SameEngine.engineState_eq {s t : State} (h : s.SameEngine t) : t.engineState = s.engineState := by
  obtain ⟨hr, hf⟩ := h
  simp only [State.engineState, hr, hf]

/-- A committed handler's next state meets what the computation guarantees, or it is fault entry. -/
theorem commit_ensures_or_fault {P : State → Prop} {s t : State} {r : Except FaultKind State}
    (h : commit s r = .next t) (hr : Ensures P r) : P t ∨ ∃ k, t = s.takeFault k := by
  rcases commit_cases s h with hok | ⟨k, -, ht⟩
  · exact .inl (hr t hok)
  · exact .inr ⟨k, ht⟩

theorem exec_hlt (s : State) : exec .hlt s = .next (s.setRunning false) := rfl

/-- The `pc <- pc + 1 + k` that ends most handlers (R116) keeps the running flag and the latch. -/
theorem Ensures.sameEngine_then_advance {s : State} {x : Except FaultKind State} (hx : Ensures s.SameEngine x)
    (k : Nat) : Ensures s.SameEngine (x >>= fun u => pure (u.advance k)) :=
  hx.bind fun _ hu => ensures_ok.2 hu

/-- No handler but HLT's writes the running flag, and none writes the latch but by fault entry (R36, R37). -/
theorem exec_sameEngine_or_fault {i : Instr} {s t : State} (hi : i ≠ .hlt) (h : exec i s = .next t) :
    s.SameEngine t ∨ ∃ k, t = s.takeFault k := by
  have hs : s.SameEngine s := ⟨rfl, rfl⟩
  have hreg : ∀ a v, Ensures s.SameEngine (s.writeReg a v) := writeReg_ensures fun _ => hs
  have hmem : ∀ a v, Ensures s.SameEngine (s.memWrite a v) := memWrite_ensures fun _ => hs
  have hpush : ∀ value, Ensures s.SameEngine (s.push value) := push_ensures fun _ _ => hs
  have hjump : ∀ a, Ensures s.SameEngine (s.readReg a >>= fun v => pure (s.jump v)) :=
    fun a => ensures_bind_of_forall fun _ => ensures_ok.2 hs
  cases i with
  | add a b | mul a b =>
    exact commit_ensures_or_fault h (ensures_bind_of_forall fun (_, _) => (hreg a _).sameEngine_then_advance 2)
  | and a b =>
    refine commit_ensures_or_fault h ?_
    split
    · exact (hreg a _).sameEngine_then_advance 2
    · split
      · exact ensures_ok.2 hs
      · exact ensures_error _
  | cmp a b => exact commit_ensures_or_fault h (ensures_bind_of_forall fun (_, _) => ensures_ok.2 hs)
  | jmp a => exact commit_ensures_or_fault h (hjump a)
  | jeq a =>
    refine commit_ensures_or_fault h ?_
    split
    · exact hjump a
    · exact ensures_ok.2 hs
  | jne a =>
    refine commit_ensures_or_fault h ?_
    split
    · exact ensures_ok.2 hs
    · exact hjump a
  | call a =>
    exact commit_ensures_or_fault h (ensures_bind_of_forall fun _ => ensures_bind_of_forall fun _ =>
      (hpush _).bind fun _ hu => ensures_bind_of_forall fun _ => ensures_ok.2 hu)
  | ret => exact commit_ensures_or_fault h (pop_ensures (P := s.SameEngine) (fun _ => ensures_ok.2 hs) fun _ _ hu => hu)
  | push a =>
    exact commit_ensures_or_fault h (ensures_bind_of_forall fun _ => (hpush _).sameEngine_then_advance 1)
  | pop a =>
    exact commit_ensures_or_fault h (ensures_bind_of_forall fun _ =>
      (pop_ensures (hreg a) fun _ _ hu => hu).sameEngine_then_advance 1)
  | ldi a imm => exact commit_ensures_or_fault h ((hreg a imm).sameEngine_then_advance 2)
  | st a b =>
    exact commit_ensures_or_fault h (ensures_bind_of_forall fun (_, _) => (hmem _ _).sameEngine_then_advance 2)
  | prn a | pra a => exact commit_ensures_or_fault h (ensures_bind_of_forall fun _ => ensures_ok.2 hs)
  | hlt => exact absurd rfl hi

/-! ## The step -/

/-- A step leaves the engine Running, or it is an HLT that clears the running flag, or it enters a fault (R120). -/
theorem step_running_or_hlt_or_fault {s t : State} (h : step s = .next t) :
    t.engineState = .running ∨ (s.fetch = .ok .hlt ∧ t = s.setRunning false) ∨ ∃ k, t = s.takeFault k := by
  obtain ⟨-, -, ⟨i, hi, hexec⟩ | ⟨k, -, ht⟩⟩ := step_cases s h
  · by_cases hhlt : i = .hlt
    · subst hhlt
      rw [exec_hlt] at hexec
      cases hexec
      exact .inr (.inl ⟨hi, rfl⟩)
    · rcases exec_sameEngine_or_fault hhlt hexec with hsame | hfault
      · exact .inl (hsame.engineState_eq.trans (running_of_step h))
      · exact .inr (.inr hfault)
  · exact .inr (.inr ⟨k, ht⟩)

/-- HLT leaves an engine with an empty latch Stopped (R39, R194). -/
theorem setRunning_false_stopped {s : State} (hf : s.fault = none) : (s.setRunning false).engineState = .stopped :=
  (s.setRunning false).engineState_eq_stopped.2 ⟨hf, rfl⟩

/-- A step that clears the running flag runs an HLT. -/
theorem fetch_hlt_of_step_running_false {s t : State} (h : step s = .next t) (ht : t.running = false) :
    s.fetch = .ok .hlt ∧ t = s.setRunning false := by
  rcases step_running_or_hlt_or_fault h with hrun | hhlt | ⟨k, rfl⟩
  · obtain ⟨-, hr⟩ := t.engineState_eq_running.1 hrun
    simp [ht] at hr
  · exact hhlt
  · obtain ⟨-, hr⟩ := s.engineState_eq_running.1 (running_of_step h)
    simp [hr] at ht

/-- A step that leaves a record in the latch changes the latch only. -/
theorem eq_takeFault_of_step_fault {s t : State} (h : step s = .next t) (ht : t.fault ≠ none) :
    ∃ k, t = s.takeFault k := by
  obtain ⟨hf, -⟩ := s.engineState_eq_running.1 (running_of_step h)
  rcases step_running_or_hlt_or_fault h with hrun | ⟨-, rfl⟩ | hfault
  · exact absurd (t.engineState_eq_running.1 hrun).1 ht
  · exact absurd hf ht
  · exact hfault

/-! ## The obligations -/

/-- Settles O37: HLT's handler is the clearing of the running flag. -/
theorem hltStopsEngine : Obligations.HltStopsEngine := by
  refine ⟨fun _ => rfl, exec_hlt, fun s t hf h => ?_⟩
  rw [exec_hlt] at h
  cases h
  exact ⟨setRunning_false_stopped hf, step_of_stopped _ hf rfl⟩

/-- Settles O53: of the three things a step can do, only the HLT leaves the running flag false. -/
theorem onlyHaltEndsRun : Obligations.OnlyHaltEndsRun := by
  intro s t h ht
  obtain ⟨hfetch, rfl⟩ := fetch_hlt_of_step_running_false h ht
  obtain ⟨hl, hN, -⟩ := s.fetch_eq_ok.1 hfetch
  obtain ⟨hf, -⟩ := s.engineState_eq_running.1 (running_of_step h)
  exact ⟨hN, hl, rfl, setRunning_false_stopped hf⟩

end Sys2Proof.Machine
end

section
/-! PROOFS. Runs of a Running engine: what comes before an end, that a run has at most one end, and that it has one or
goes on for ever (R120, R121). -/

namespace Sys2Proof.Safety

open Sys2Proof.Machine

/-! ## Before and after the end -/

/-- A run that took at least one step took a last one. -/
theorem exists_last_step {s t : State} {n : Nat} (hn : 0 < n) (h : After s n t) :
    ∃ k u, n = k + 1 ∧ After s k u ∧ step u = .next t := by
  obtain ⟨k, rfl⟩ := Nat.exists_eq_add_one.2 hn
  obtain ⟨u, hu, hstep⟩ := after_succ_last.1 h
  exact ⟨k, u, rfl, hu, hstep⟩

/-- A run of `n` steps has a state after every smaller number of steps. -/
theorem exists_after_of_le {s t : State} {k n : Nat} (h : After s n t) (hkn : k ≤ n) : ∃ u, After s k u := by
  induction hkn generalizing t with
  | refl => exact ⟨t, h⟩
  | step _ ih =>
    obtain ⟨u, hu, -⟩ := after_succ_last.1 h
    exact ih hu

/-- The engine is Running before every step that a run takes (R111). -/
theorem running_before {s t : State} {k n : Nat} (h : After s n t) (hkn : k < n) :
    ∃ u, After s k u ∧ u.engineState = .running := by
  obtain ⟨v, hv⟩ := exists_after_of_le h hkn
  obtain ⟨u, hu, hstep⟩ := after_succ_last.1 hv
  exact ⟨u, hu, running_of_step hstep⟩

/-- No step follows a state that is not Running. -/
theorem not_after_of_lt {s t u : State} {k n : Nat} (h : After s n t) (ht : t.engineState ≠ .running) (hnk : n < k) :
    ¬ After s k u := by
  intro hu
  obtain ⟨t', ht', hrun⟩ := running_before hu hnk
  rw [after_unique h ht'] at ht
  exact ht hrun

/-- A run is outside the Running state at one moment only. -/
theorem end_unique {s t u : State} {n m : Nat} (h : After s n t) (ht : t.engineState ≠ .running) (h' : After s m u)
    (hu : u.engineState ≠ .running) : t = u := by
  rcases Nat.lt_trichotomy n m with hlt | rfl | hgt
  · exact absurd h' (not_after_of_lt h ht hlt)
  · exact after_unique h h'
  · exact absurd h (not_after_of_lt h' hu hgt)

theorem not_runsForever_of_end {s t : State} {n : Nat} (h : After s n t) (ht : t.engineState ≠ .running) :
    ¬ RunsForever s := by
  intro hall
  obtain ⟨u, hu, hrun⟩ := hall n
  rw [after_unique h hu] at ht
  exact ht hrun

/-! ## The two ends -/

theorem EndsSuccessfully.after {s t : State} {n : Nat} : EndsSuccessfully s n t → After s n t := fun ⟨_, _, h, _⟩ => h

theorem Fails.after {s t : State} {n : Nat} : Fails s n t → After s n t := fun ⟨_, _, h, _⟩ => h

theorem EndsSuccessfully.not_running {s t : State} {n : Nat} (h : EndsSuccessfully s n t) :
    t.engineState ≠ .running := by
  obtain ⟨-, -, -, hr, -⟩ := h
  simp [State.engineState_eq_running, hr]

theorem Fails.not_running {s t : State} {n : Nat} (h : Fails s n t) : t.engineState ≠ .running := by
  obtain ⟨-, -, -, hf⟩ := h
  exact fun hrun => hf (t.engineState_eq_running.1 hrun).1

/-- No run both ends successfully and fails. -/
theorem EndsSuccessfully.safe {s t : State} {n : Nat} (h : EndsSuccessfully s n t) : Safe s := by
  intro m u hfail
  obtain rfl := end_unique h.after h.not_running hfail.after hfail.not_running
  obtain ⟨-, -, -, -, hnone⟩ := h
  obtain ⟨-, -, -, hsome⟩ := hfail
  exact hsome hnone

/-- After `n` steps a run of a Running engine goes on, unless it has ended one way or the other (R120). -/
theorem ends_or_fails_or_running {s : State} (hs : s.engineState = .running) (n : Nat) :
    (∃ n t, EndsSuccessfully s n t) ∨ (∃ n t, Fails s n t) ∨ ∃ t, After s n t ∧ t.engineState = .running := by
  induction n with
  | zero => exact .inr (.inr ⟨s, after_zero s, hs⟩)
  | succ n ih =>
    obtain hend | hfail | ⟨u, hu, hrun⟩ := ih
    · exact .inl hend
    · exact .inr (.inl hfail)
    obtain ⟨t, hstep⟩ := step_next_of_running hrun
    have ht : After s (n + 1) t := after_succ_last.2 ⟨u, hu, hstep⟩
    rcases step_running_or_hlt_or_fault hstep with hrun' | ⟨-, rfl⟩ | ⟨k, rfl⟩
    · exact .inr (.inr ⟨t, ht, hrun'⟩)
    · obtain ⟨hf, -⟩ := u.engineState_eq_running.1 hrun
      exact .inl ⟨n + 1, _, (endsSuccessfully_iff hs).2 ⟨ht, rfl, hf⟩⟩
    · exact .inr (.inl ⟨n + 1, _, (fails_iff hs).2 ⟨ht, Option.some_ne_none _⟩⟩)

/-- From a Running engine a run halts, faults or never ends (R120). -/
theorem ends_or_fails_or_runsForever {s : State} (hs : s.engineState = .running) :
    (∃ n t, EndsSuccessfully s n t) ∨ (∃ n t, Fails s n t) ∨ RunsForever s := by
  by_cases hforever : RunsForever s
  · exact .inr (.inr hforever)
  · obtain ⟨n, hn⟩ := not_forall.1 hforever
    rcases ends_or_fails_or_running hs n with hend | hfail | hrun
    · exact .inl hend
    · exact .inr (.inl hfail)
    · exact absurd hrun hn

/-! ## The obligations -/

/-- Settles O54, by induction on the number of steps; the three exclude each other because no step follows a state that
is not Running. -/
theorem runHaltsFaultsOrRunsForever : Obligations.RunHaltsFaultsOrRunsForever := by
  refine ⟨fun s hs => ⟨ends_or_fails_or_runsForever hs, ?_, ?_⟩, ?_⟩
  · rintro ⟨n, t, hend⟩
    exact ⟨hend.safe, not_runsForever_of_end hend.after hend.not_running⟩
  · intro hforever n t hfail
    exact not_runsForever_of_end hfail.after hfail.not_running hforever
  · intro s t n _ hend
    exact ⟨fun k => running_before hend.after, fun k u => not_after_of_lt hend.after hend.not_running⟩

/-- Settles O55: the last step of a run is an HLT if it left the running flag false, fault entry if it left a
record. -/
theorem endedRunsAreHaltsOrFaults : Obligations.EndedRunsAreHaltsOrFaults := by
  refine ⟨fun s t n hend => ?_, fun s t n hfail => ?_, fun s t u n m hend => hend.safe m u⟩
  · obtain ⟨-, hn, hafter, hr, -⟩ := hend
    obtain ⟨k, u, hk, hu, hstep⟩ := exists_last_step hn hafter
    obtain ⟨hN, hl, rfl, -⟩ := onlyHaltEndsRun u t hstep hr
    exact ⟨k, u, hk, hu, running_of_step hstep, hN, hl, rfl⟩
  · obtain ⟨-, hn, hafter, hf⟩ := hfail
    obtain ⟨k, u, hk, hu, hstep⟩ := exists_last_step hn hafter
    obtain ⟨kind, rfl⟩ := eq_takeFault_of_step_fault hstep hf
    exact ⟨k, u, ⟨kind, u.pc⟩, hk, hu, running_of_step hstep, rfl, rfl⟩

end Sys2Proof.Safety
end

section
/-! PROOFS. What ADD and MUL share (R130, R136, R137): two registers read, their combination written to the first, an
advance by 3; and the obligations about the two. -/

namespace Sys2Proof.Machine

/-! ## The computation that combines two registers -/

/-- `x[a] <- op x[a] x[b]` with both register checks, then the advance by 3 (R137). `exec_add` and `exec_mul` tie it to
the model. -/
def State.combineRegs (s : State) (op : Byte → Byte → Byte) (a b : Byte) : Except FaultKind State := do
  let (va, vb) ← s.readRegs a b
  let s' ← s.writeReg a (op va vb)
  return s'.advance 2

theorem exec_add (a b : Byte) (s : State) : exec (.add a b) s = commit s (s.combineRegs (· + ·) a b) := rfl

theorem exec_mul (a b : Byte) (s : State) : exec (.mul a b) s = commit s (s.combineRegs (· * ·) a b) := rfl

section
variable (s : State) (op : Byte → Byte → Byte) {a b : Byte}

theorem commit_combineRegs_of_lt (ha : a.toNat < 8) (hb : b.toNat < 8) :
    commit s (s.combineRegs op a b) = .next { s with
      regs := s.regs.set a.toNat (op s.regs[a.toNat] s.regs[b.toNat])
      pc := s.pc + 3 } := by
  simp [State.combineRegs, s.readRegs_of_lt ha hb, s.writeReg_of_lt _ ha, State.advance]

theorem commit_combineRegs_of_ge_left (ha : 8 ≤ a.toNat) :
    commit s (s.combineRegs op a b) = .next (s.takeFault (.invalidRegister a)) := by
  simp [State.combineRegs, s.readRegs_of_ge_left ha]

theorem commit_combineRegs_of_ge_right (ha : a.toNat < 8) (hb : 8 ≤ b.toNat) :
    commit s (s.combineRegs op a b) = .next (s.takeFault (.invalidRegister b)) := by
  simp [State.combineRegs, s.readRegs_of_ge_right ha hb]

end

/-! ## Arithmetic modulo 256 (R136) -/

theorem byte_add_eq_ofNat_mod (x y : Byte) : x + y = BitVec.ofNat 8 ((x.toNat + y.toNat) % 256) :=
  BitVec.eq_of_toNat_eq (by simp)

theorem byte_mul_eq_ofNat_mod (x y : Byte) : x * y = BitVec.ofNat 8 ((x.toNat * y.toNat) % 256) :=
  BitVec.eq_of_toNat_eq (by simp)

/-! ## The obligations -/

/-- Settles O20: ADD combines its two registers by the sum of bytes, which is the sum modulo 256. -/
theorem addWrapsModulo256 : Obligations.AddWrapsModulo256 := by
  refine ⟨fun _ _ _ => rfl, fun a b s ha hb => ?_, fun _ _ s => commit_combineRegs_of_ge_left s _,
    fun _ _ s => commit_combineRegs_of_ge_right s _⟩
  rw [exec_add, commit_combineRegs_of_lt s _ ha hb, byte_add_eq_ofNat_mod]

/-- Settles O21: MUL combines its two registers by the product of bytes, which is the product modulo 256. -/
theorem mulWrapsModulo256 : Obligations.MulWrapsModulo256 := by
  refine ⟨fun _ _ _ => rfl, fun a b s ha hb => ?_, fun _ _ s => commit_combineRegs_of_ge_left s _,
    fun _ _ s => commit_combineRegs_of_ge_right s _⟩
  rw [exec_mul, commit_combineRegs_of_lt s _ ha hb, byte_mul_eq_ofNat_mod]

end Sys2Proof.Machine
end

section
/-! PROOFS. The transfers of control that push nothing: JMP, the two branches as a JMP or an advance (R150 to R152), and
RET as a pop into the Program Counter (R154). -/

namespace Sys2Proof.Machine

section
variable {s : State} {a : Byte}

/-! ## JMP (R150) -/

theorem exec_jmp_of_lt (ha : a.toNat < 8) : exec (.jmp a) s = .next (s.jump s.regs[a.toNat]) := by
  simp [exec, execJmp, s.readReg_of_lt ha]

theorem exec_jmp_of_ge (ha : 8 ≤ a.toNat) : exec (.jmp a) s = .next (s.takeFault (.invalidRegister a)) := by
  simp [exec, execJmp, s.readReg_of_ge ha]

/-- A jump writes neither the running flag nor the latch. -/
theorem State.jump_sameEngine (t : Byte) : s.SameEngine (s.jump t) := ⟨rfl, rfl⟩

/-- A target without a cell shows at the step after the jump: its fetch fails (R150, R112). -/
theorem step_jump_of_ge {t : Byte} (hrun : s.engineState = .running) (ht : s.params.memSize ≤ t.toNat) :
    step (s.jump t) = .next ((s.jump t).takeFault (.invalidAddress t.toNat)) :=
  step_of_running_of_fetch_error ((State.jump_sameEngine t).engineState_eq.trans hrun) ((s.jump t).fetch_of_pc_ge ht)

/-! ## JEQ and JNE (R151, R152): a JMP when taken, an advance by 2 when not -/

theorem exec_jeq_of_equal (h : s.flags.equal = true) : exec (.jeq a) s = exec (.jmp a) s := by
  simp [exec, execJeq, execJmp, h]

theorem exec_jeq_of_not_equal (h : s.flags.equal = false) : exec (.jeq a) s = .next { s with pc := s.pc + 2 } := by
  simp [exec, execJeq, h, State.advance]

theorem exec_jne_of_equal (h : s.flags.equal = true) : exec (.jne a) s = .next { s with pc := s.pc + 2 } := by
  simp [exec, execJne, h, State.advance]

theorem exec_jne_of_not_equal (h : s.flags.equal = false) : exec (.jne a) s = exec (.jmp a) s := by
  simp [exec, execJne, execJmp, h]

/-! ## RET (R154) -/

/-- A jump leaves the Stack Pointer, which `pop` increments after its destination is written (R172). -/
@[simp] theorem State.jump_sp (t : Byte) : (s.jump t).sp = s.sp := rfl

theorem exec_ret_of_lt (h : s.sp.toNat < s.params.memSize) :
    exec .ret s = .next ((s.jump (s.mem.read s.sp.toNat)).setSp (s.sp + 1)) := by
  simp [exec, execRet, s.pop_of_lt _ h]

theorem exec_ret_of_ge (h : s.params.memSize ≤ s.sp.toNat) :
    exec .ret s = .next (s.takeFault (.invalidAddress s.sp.toNat)) := by
  simp [exec, execRet, s.pop_of_ge _ h]

end

/-! ## The obligations -/

/-- Settles O24: JMP checks its register operand and nothing else, so a target without a cell is left to the fetch of
the next step. -/
theorem jmpToRegister : Obligations.JmpToRegister := by
  refine ⟨fun _ _ => rfl, fun _ _ => exec_jmp_of_lt, fun _ _ => exec_jmp_of_ge, fun a s t ha hrun hN h => ?_⟩
  rw [exec_jmp_of_lt ha] at h
  cases h
  exact step_jump_of_ge hrun hN

/-- Settles O25: with FL.E a JEQ is the JMP of its operand, and without it the operand is not looked at. -/
theorem jeqBranchesOnEqual : Obligations.JeqBranchesOnEqual :=
  ⟨fun _ _ => rfl, fun _ _ ha h => (exec_jeq_of_equal h).trans (exec_jmp_of_lt ha),
    fun _ _ h ha => (exec_jeq_of_equal h).trans (exec_jmp_of_ge ha), fun _ _ => exec_jeq_of_not_equal⟩

/-- Settles O26: without FL.E a JNE is the JMP of its operand; that it complements JEQ is the case split on FL.E. -/
theorem jneBranchesOnNotEqual : Obligations.JneBranchesOnNotEqual := by
  refine ⟨fun _ _ => rfl, fun _ _ ha h => (exec_jne_of_not_equal h).trans (exec_jmp_of_lt ha),
    fun _ _ h ha => (exec_jne_of_not_equal h).trans (exec_jmp_of_ge ha), fun _ _ => exec_jne_of_equal,
    fun a s ha => ?_⟩
  cases h : s.flags.equal with
  | true => exact .inl ⟨exec_jne_of_equal h, (exec_jeq_of_equal h).trans (exec_jmp_of_lt ha)⟩
  | false => exact .inr ⟨exec_jeq_of_not_equal h, (exec_jne_of_not_equal h).trans (exec_jmp_of_lt ha)⟩

/-- Settles O28: RET pops into the Program Counter, and the increment of the Stack Pointer is the sum of bytes, which is
the sum modulo 256. -/
theorem retPopsProgramCounter : Obligations.RetPopsProgramCounter := by
  refine ⟨fun _ => rfl, fun s h => ?_, fun _ => exec_ret_of_ge⟩
  rw [exec_ret_of_lt h, byte_add_eq_ofNat_mod]
  rfl

end Sys2Proof.Machine
end

section
/-! PROOFS. The instructions that move the Stack Pointer (R171 to R175): what PUSH, POP and CALL answer when they
complete, and how far a push or a pop that completes moves the pointer, modulo 256. -/

namespace Sys2Proof.Machine

section
variable {s : State} {a : Byte}

/-! ## PUSH, POP and CALL, by what they answer (R173, R174, R153) -/

theorem exec_push_of_lt (ha : a.toNat < 8) (h : (s.sp - 1).toNat < s.params.memSize) :
    exec (.push a) s = .next { s with
      regs := s.regs.set 7 (s.sp - 1)
      mem := s.mem.write (s.sp - 1).toNat (s.regs.set 7 (s.sp - 1))[a.toNat]
      pc := s.pc + 2 } := by
  have hpush := s.push_of_ok (value := fun u => u.readReg a) (State.readReg_of_lt _ ha) h
  simp [exec, execPush, checkReg_of_lt ha, hpush, State.advance]

/-- A PUSH whose cell does not exist raises `InvalidAddress` of that cell (R173). -/
theorem exec_push_of_sp_ge (ha : a.toNat < 8) (h : s.params.memSize ≤ (s.sp - 1).toNat) :
    exec (.push a) s = .next (s.takeFault (.invalidAddress (s.sp - 1).toNat)) := by
  have hpush := s.push_of_ge (value := fun u => u.readReg a) (State.readReg_of_lt _ ha) h
  simp [exec, execPush, checkReg_of_lt ha, hpush]

theorem exec_pop_of_lt (ha : a.toNat < 8) (h : s.sp.toNat < s.params.memSize) :
    exec (.pop a) s = .next { s with
      regs := (s.regs.set a.toNat (s.mem.read s.sp.toNat)).set 7
        ((s.regs.set a.toNat (s.mem.read s.sp.toNat))[7] + 1)
      pc := s.pc + 2 } := by
  simp [exec, execPop, checkReg_of_lt ha, s.pop_of_lt _ h, s.writeReg_of_lt _ ha, State.advance, State.setSp, State.sp]

theorem exec_call_of_lt (ha : a.toNat < 8) (hpc : s.pc + 2 ≤ 255) (h : (s.sp - 1).toNat < s.params.memSize) :
    exec (.call a) s = .next { s with
      regs := s.regs.set 7 (s.sp - 1)
      mem := s.mem.write (s.sp - 1).toNat (BitVec.ofNat 8 (s.pc + 2))
      pc := (s.regs.set 7 (s.sp - 1))[a.toNat].toNat } := by
  have hpush := s.push_of_ok (value := fun _ => .ok (BitVec.ofNat 8 (s.pc + 2))) rfl h
  simp [exec, execCall, checkReg_of_lt ha, s.returnAddress_of_le hpc, hpush, State.readReg_of_lt _ ha, State.jump]

/-! ## Where a push, a register write and a pop leave the Stack Pointer -/

/-- `u` has the Stack Pointer `v` (R24). -/
def State.HasSp (v : Byte) (u : State) : Prop := u.sp = v

theorem push_ensures_hasSp (value : State → Except FaultKind Byte) :
    Ensures (State.HasSp (s.sp - 1)) (s.push value) := by
  rw [s.push_eq]
  exact ensures_bind_of_forall fun v => memWrite_ensures (fun _ => s.setSp_sp _) _ v

theorem writeReg_seven_ensures_hasSp (v : Byte) : Ensures (State.HasSp v) (s.writeReg 7 v) := by
  rw [s.writeReg_of_lt v (by decide)]
  exact ensures_ok.2 (s.setSp_sp v)

/-- No other register is the Stack Pointer (R22, R24). -/
theorem State.regs_set_seven_of_ne (ha : a.toNat < 8) (h : a ≠ 7) (v : Byte) : (s.regs.set a.toNat v)[7] = s.sp :=
  s.regs_set_other a v ha 7 (by decide) fun h7 => h (BitVec.eq_of_toNat_eq h7.symm)

theorem writeReg_ensures_hasSp_of_ne (h : a ≠ 7) (v : Byte) : Ensures (State.HasSp s.sp) (s.writeReg a v) := by
  rcases Nat.lt_or_ge a.toNat 8 with ha | ha
  · rw [s.writeReg_of_lt v ha]
    exact ensures_ok.2 (State.regs_set_seven_of_ne ha h v)
  · rw [s.writeReg_of_ge v ha]
    exact ensures_error _

/-- A pop increments the Stack Pointer that its destination leaves (R172). -/
theorem pop_ensures_hasSp {dest : Byte → State → Except FaultKind State} {v : Byte}
    (hd : Ensures (State.HasSp v) (dest (s.mem.read s.sp.toNat) s)) : Ensures (State.HasSp (v + 1)) (s.pop dest) := by
  rcases Nat.lt_or_ge s.sp.toNat s.params.memSize with h | h
  · rw [s.pop_of_lt dest h]
    exact hd.bind fun u hu => ensures_ok.2 ((u.setSp_sp _).trans (congrArg (· + 1) hu))
  · rw [s.pop_of_ge dest h]
    exact ensures_error _

/-! ## The same of the instructions that complete -/

/-- A committed handler that leaves the latch empty did not raise, so its next state meets what the computation
guarantees. -/
theorem commit_ensures_of_completes {P : State → Prop} {t : State} {r : Except FaultKind State}
    (h : commit s r = .next t) (ht : t.fault = none) (hr : Ensures P r) : P t := by
  rcases commit_ensures_or_fault h hr with hP | ⟨k, rfl⟩
  · exact hP
  · cases ht

/-- The `pc <- pc + 1 + k` that ends most handlers (R116) keeps the Stack Pointer. -/
theorem Ensures.hasSp_then_advance {v : Byte} {x : Except FaultKind State} (hx : Ensures (State.HasSp v) x) (k : Nat) :
    Ensures (State.HasSp v) (x >>= fun u => pure (u.advance k)) :=
  hx.bind fun _ hu => ensures_ok.2 hu

variable {t : State} (ht : t.fault = none)
include ht

theorem push_completes_sp (h : exec (.push a) s = .next t) : t.sp = s.sp - 1 :=
  commit_ensures_of_completes (P := State.HasSp _) h ht <|
    ensures_bind_of_forall fun _ => (push_ensures_hasSp _).hasSp_then_advance 1

theorem call_completes_sp (h : exec (.call a) s = .next t) : t.sp = s.sp - 1 :=
  commit_ensures_of_completes (P := State.HasSp _) h ht <|
    ensures_bind_of_forall fun _ => ensures_bind_of_forall fun _ => (push_ensures_hasSp _).bind fun _ hu =>
      ensures_bind_of_forall fun _ => ensures_ok.2 hu

theorem ret_completes_sp (h : exec .ret s = .next t) : t.sp = s.sp + 1 :=
  commit_ensures_of_completes (P := State.HasSp _) h ht <| pop_ensures_hasSp (ensures_ok.2 rfl)

theorem pop_completes_sp_of_ne (ha : a ≠ 7) (h : exec (.pop a) s = .next t) : t.sp = s.sp + 1 :=
  commit_ensures_of_completes (P := State.HasSp _) h ht <|
    ensures_bind_of_forall fun _ => (pop_ensures_hasSp (writeReg_ensures_hasSp_of_ne ha _)).hasSp_then_advance 1

theorem pop_seven_completes_sp (h : exec (.pop 7) s = .next t) : t.sp = s.mem.read s.sp.toNat + 1 :=
  commit_ensures_of_completes (P := State.HasSp _) h ht <|
    ensures_bind_of_forall fun _ => (pop_ensures_hasSp (writeReg_seven_ensures_hasSp _)).hasSp_then_advance 1

end

/-! ## Counting modulo 256 (R175) -/

theorem byte_sub_one_toNat (x : Byte) : (x - 1).toNat = (x.toNat + 255) % 256 := by bv_omega

theorem byte_add_one_toNat (x : Byte) : (x + 1).toNat = (x.toNat + 1) % 256 := x.toNat_add 1

/-! ## The wrap itself (R175) -/

section
variable {s : State} {a : Byte}

theorem State.sp_sub_one_of_sp_zero (hsp : s.sp = 0x00) : s.sp - 1 = 0xFF := by
  rw [hsp]
  rfl

theorem State.sp_add_one_of_sp_max (hsp : s.sp = 0xFF) : s.sp + 1 = 0x00 := by
  rw [hsp]
  rfl

theorem push_wraps (ha : a.toNat < 8) (hsp : s.sp = 0x00) (hN : 255 < s.params.memSize) :
    ∃ t, exec (.push a) s = .next t ∧ t.sp = 0xFF ∧ t = { s with regs := t.regs, mem := t.mem, pc := t.pc } :=
  ⟨_, exec_push_of_lt ha (by rwa [State.sp_sub_one_of_sp_zero hsp]),
    (s.setSp_sp _).trans (State.sp_sub_one_of_sp_zero hsp), rfl⟩

theorem call_wraps (ha : a.toNat < 8) (hsp : s.sp = 0x00) (hN : 255 < s.params.memSize) (hpc : s.pc + 2 ≤ 255) :
    ∃ t, exec (.call a) s = .next t ∧ t.sp = 0xFF ∧ t = { s with regs := t.regs, mem := t.mem, pc := t.pc } :=
  ⟨_, exec_call_of_lt ha hpc (by rwa [State.sp_sub_one_of_sp_zero hsp]),
    (s.setSp_sp _).trans (State.sp_sub_one_of_sp_zero hsp), rfl⟩

theorem ret_wraps (hsp : s.sp = 0xFF) (hN : 255 < s.params.memSize) :
    ∃ t, exec .ret s = .next t ∧ t.sp = 0x00 ∧ t = { s with regs := t.regs, pc := t.pc } :=
  ⟨_, exec_ret_of_lt (by rwa [hsp]), (State.setSp_sp _ _).trans (State.sp_add_one_of_sp_max hsp), rfl⟩

theorem pop_wraps (ha : a.toNat < 8) (hsp : s.sp = 0xFF) (hN : 255 < s.params.memSize) :
    ∃ t, exec (.pop a) s = .next t ∧ (a ≠ 7 → t.sp = 0x00) ∧ t = { s with regs := t.regs, pc := t.pc } := by
  refine ⟨_, exec_pop_of_lt ha (by rwa [hsp]), fun h7 => ?_, rfl⟩
  rw [State.regs_set_seven_of_ne ha h7, hsp]
  exact Vector.getElem_set_self _

end

/-! ## The obligation -/

/-- Settles O31: what a push or a pop guarantees of the Stack Pointer it leaves gives the three counting laws, and at
the wrap the equations of the four instructions give the next state itself. -/
theorem stackPointerWraps : Obligations.StackPointerWraps := by
  refine ⟨?_, ?_, ?_, fun a s ha hsp hN => ⟨push_wraps ha hsp hN, call_wraps ha hsp hN⟩,
    fun a s ha hsp hN => ⟨pop_wraps ha hsp hN, ret_wraps hsp hN⟩, ?_⟩
  · rintro a s t - ht (hpush | hcall)
    · rw [push_completes_sp ht hpush, byte_sub_one_toNat]
    · rw [call_completes_sp ht hcall, byte_sub_one_toNat]
  · rintro a s t - ht (⟨hpop, ha⟩ | hret)
    · rw [pop_completes_sp_of_ne ht ha hpop, byte_add_one_toNat]
    · rw [ret_completes_sp ht hret, byte_add_one_toNat]
  · rintro s t - ht hpop
    rw [pop_seven_completes_sp ht hpop, byte_add_one_toNat]
  · intro a s ha hsp hN
    have hq := State.sp_sub_one_of_sp_zero hsp
    rw [exec_push_of_sp_ge ha (by rwa [hq]), hq]
    rfl

end Sys2Proof.Machine
end

section
/-! PROOFS. Data movement and output (R190 to R193): LDI writes a register, ST writes a cell, and PRN and PRA are one
computation, which emits a register, at two kinds of event. -/

namespace Sys2Proof.Machine

section
variable {s : State} {a b : Byte}

/-! ## LDI (R190) -/

theorem exec_ldi_of_lt (imm : Byte) (ha : a.toNat < 8) :
    exec (.ldi a imm) s = .next { s with regs := s.regs.set a.toNat imm, pc := s.pc + 3 } := by
  simp [exec, execLdi, s.writeReg_of_lt imm ha, State.advance]

theorem exec_ldi_of_ge (imm : Byte) (ha : 8 ≤ a.toNat) :
    exec (.ldi a imm) s = .next (s.takeFault (.invalidRegister a)) := by
  simp [exec, execLdi, s.writeReg_of_ge imm ha]

/-! ## ST (R191), in the order of its checks -/

theorem exec_st_of_ge_left (ha : 8 ≤ a.toNat) : exec (.st a b) s = .next (s.takeFault (.invalidRegister a)) := by
  simp [exec, execSt, s.readRegs_of_ge_left ha]

theorem exec_st_of_ge_right (ha : a.toNat < 8) (hb : 8 ≤ b.toNat) :
    exec (.st a b) s = .next (s.takeFault (.invalidRegister b)) := by
  simp [exec, execSt, s.readRegs_of_ge_right ha hb]

/-- With both registers read, an ST is the store of the one at the address in the other, then the advance (R191). -/
theorem exec_st_of_regs_lt (ha : a.toNat < 8) (hb : b.toNat < 8) :
    exec (.st a b) s = commit s (s.memWrite s.regs[a.toNat].toNat s.regs[b.toNat] >>= fun u => .ok (u.advance 2)) := by
  simp [exec, execSt, s.readRegs_of_lt ha hb]

theorem exec_st_of_address_ge (ha : a.toNat < 8) (hb : b.toNat < 8) (h : s.params.memSize ≤ s.regs[a.toNat].toNat) :
    exec (.st a b) s = .next (s.takeFault (.invalidAddress s.regs[a.toNat].toNat)) := by
  rw [exec_st_of_regs_lt ha hb, s.memWrite_of_ge _ h, except_bind_error, commit_error]

theorem exec_st_of_address_lt (ha : a.toNat < 8) (hb : b.toNat < 8) (h : s.regs[a.toNat].toNat < s.params.memSize) :
    exec (.st a b) s = .next { s with
      mem := s.mem.write s.regs[a.toNat].toNat s.regs[b.toNat]
      pc := s.pc + 3 } := by
  rw [exec_st_of_regs_lt ha hb, s.memWrite_of_lt _ h, except_bind_ok, commit_ok]
  rfl

end

/-! ## PRN and PRA (R192, R193): the computation that emits a register -/

/-- The computation of PRN and PRA with the kind of event left open: read `x[a]`, emit it, advance by 2. -/
def State.emitReg (s : State) (kind : OutKind) (a : Byte) : Except FaultKind State := do
  let v ← s.readReg a
  return (s.emit kind v).advance 1

theorem exec_prn (a : Byte) (s : State) : exec (.prn a) s = commit s (s.emitReg .prn a) := rfl

theorem exec_pra (a : Byte) (s : State) : exec (.pra a) s = commit s (s.emitReg .pra a) := rfl

section
variable (s : State) (kind : OutKind) {a : Byte}

theorem commit_emitReg_of_lt (ha : a.toNat < 8) :
    commit s (s.emitReg kind a) = .next { s with
      out := s.out ++ [{ kind := kind, value := s.regs[a.toNat] }]
      pc := s.pc + 2 } := by
  simp [State.emitReg, s.readReg_of_lt ha, State.emit, State.advance]

theorem commit_emitReg_of_ge (ha : 8 ≤ a.toNat) :
    commit s (s.emitReg kind a) = .next (s.takeFault (.invalidRegister a)) := by
  simp [State.emitReg, s.readReg_of_ge ha]

end

/-- The source's round trip (R192): what LDI put into a register is what a PRN of that register prints. -/
theorem exec_ldi_then_prn {a : Byte} (imm : Byte) (s : State) (ha : a.toNat < 8) :
    ∃ t u, exec (.ldi a imm) s = .next t ∧ exec (.prn a) t = .next u ∧
      u.out = s.out ++ [{ kind := .prn, value := imm }] := by
  refine ⟨_, _, exec_ldi_of_lt imm ha, commit_emitReg_of_lt _ .prn ha, ?_⟩
  rw [s.regs_set_same a imm ha]

/-! ## The obligations -/

/-- Settles O33: LDI is the register write and the advance, and only the write can raise. -/
theorem ldiLoadsImmediate : Obligations.LdiLoadsImmediate :=
  ⟨fun _ _ _ => rfl, fun _ imm _ => exec_ldi_of_lt imm, fun _ imm _ => exec_ldi_of_ge imm⟩

/-- Settles O34: ST's three checks come in the order first operand, second operand, address. -/
theorem stStoresRegister : Obligations.StStoresRegister :=
  ⟨fun _ _ _ => rfl, fun _ _ _ => exec_st_of_address_lt, fun _ _ _ => exec_st_of_ge_left,
    fun _ _ _ => exec_st_of_ge_right, fun _ _ _ => exec_st_of_address_ge⟩

/-- Settles O35: PRN emits its register as an event of its kind, and a PRN after an LDI reads the register just written. -/
theorem prnEmitsRegister : Obligations.PrnEmitsRegister :=
  ⟨fun _ _ => rfl, fun _ s => commit_emitReg_of_lt s .prn, fun _ s => commit_emitReg_of_ge s .prn,
    fun _ imm s => exec_ldi_then_prn imm s⟩

/-- Settles O36: PRA emits its register unchanged, as PRN does, as an event of its own kind. -/
theorem praEmitsCharacter : Obligations.PraEmitsCharacter :=
  ⟨fun _ _ => rfl, fun _ s => commit_emitReg_of_lt s .pra, fun _ s => commit_emitReg_of_ge s .pra⟩

end Sys2Proof.Machine
end

section
/-! PROOFS. Which kinds of fatal error a handler and a fetch can raise (R221 to R225): what a handler's computation
answers and what it raises, part by part, and with it that no rule raises `UnsupportedALUOperation`. -/

namespace Sys2Proof.Machine

/-! ## What a computation answers and what it raises -/

/-- Whatever the computation answers meets `P`, and whatever kind of fatal error it raises meets `K`, where `Ensures`
says nothing of what is raised. -/
def Yields {α : Type} (P : α → Prop) (K : FaultKind → Prop) : Except FaultKind α → Prop
  | .ok x => P x
  | .error k => K k

@[simp] theorem yields_ok {α : Type} {P : α → Prop} {K : FaultKind → Prop} {x : α} : Yields P K (.ok x) ↔ P x := Iff.rfl

/-- In a sequence the rest may rely on what the first part answers; both parts raise only kinds that meet `K`. -/
theorem Yields.bind {α β : Type} {P : α → Prop} {Q : β → Prop} {K : FaultKind → Prop} {x : Except FaultKind α}
    {f : α → Except FaultKind β} (hx : Yields P K x) (hf : ∀ a, P a → Yields Q K (f a)) : Yields Q K (x >>= f) := by
  cases x with
  | ok a => exact hf a hx
  | error k => exact hx

/-- A committed handler's next state meets what the computation answers, or it is fault entry with a kind it raises. -/
theorem commit_yields {P : State → Prop} {K : FaultKind → Prop} {s t : State} {r : Except FaultKind State}
    (h : commit s r = .next t) (hr : Yields P K r) : P t ∨ ∃ k, K k ∧ t = s.takeFault k := by
  rcases commit_cases s h with rfl | ⟨k, rfl, ht⟩
  · exact .inl hr
  · exact .inr ⟨k, hr, ht⟩

/-! ## The shared operations: a bad register index or a bad address is all they raise -/

section
variable {P : State → Prop} {K : FaultKind → Prop} {s : State} {a : Byte}

theorem checkReg_yields (hK : 8 ≤ a.toNat → K (.invalidRegister a)) : Yields (fun _ => True) K (checkReg a) := by
  rcases Nat.lt_or_ge a.toNat 8 with ha | ha
  · rw [checkReg_of_lt ha]
    trivial
  · rw [checkReg_of_ge ha]
    exact hK ha

theorem readReg_yields (hK : 8 ≤ a.toNat → K (.invalidRegister a)) : Yields (fun _ => True) K (s.readReg a) := by
  rcases Nat.lt_or_ge a.toNat 8 with ha | ha
  · rw [s.readReg_of_lt ha]
    trivial
  · rw [s.readReg_of_ge ha]
    exact hK ha

theorem readRegs_yields {b : Byte} (ha : 8 ≤ a.toNat → K (.invalidRegister a))
    (hb : 8 ≤ b.toNat → K (.invalidRegister b)) : Yields (fun _ => True) K (s.readRegs a b) :=
  (readReg_yields ha).bind fun _ _ => (readReg_yields hb).bind fun _ _ => trivial

theorem writeReg_yields (hK : 8 ≤ a.toNat → K (.invalidRegister a)) (hP : ∀ regs, P { s with regs := regs })
    (v : Byte) : Yields P K (s.writeReg a v) := by
  rcases Nat.lt_or_ge a.toNat 8 with ha | ha
  · rw [s.writeReg_of_lt v ha]
    exact hP _
  · rw [s.writeReg_of_ge v ha]
    exact hK ha

theorem returnAddress_yields (hK : ∀ n, K (.invalidAddress n)) : Yields (fun _ => True) K s.returnAddress := by
  rcases Nat.lt_or_ge 255 (s.pc + 2) with h | h
  · rw [s.returnAddress_of_gt h]
    exact hK _
  · rw [s.returnAddress_of_le h]
    trivial

theorem memRead_yields (hK : ∀ n, K (.invalidAddress n)) (n : Nat) : Yields (fun _ => True) K (s.memRead n) := by
  rcases Nat.lt_or_ge n s.params.memSize with hn | hn
  · rw [s.memRead_of_lt hn]
    trivial
  · rw [s.memRead_of_ge hn]
    exact hK _

theorem memWrite_yields (hK : ∀ n, K (.invalidAddress n)) (hP : ∀ mem, P { s with mem := mem }) (n : Nat) (v : Byte) :
    Yields P K (s.memWrite n v) := by
  rcases Nat.lt_or_ge n s.params.memSize with hn | hn
  · rw [s.memWrite_of_lt v hn]
    exact hP _
  · rw [s.memWrite_of_ge v hn]
    exact hK _

/-- A push raises what its value raises, or the address of its cell. -/
theorem push_yields (hK : ∀ n, K (.invalidAddress n)) (hP : ∀ regs mem, P { s with regs := regs, mem := mem })
    {value : State → Except FaultKind Byte} (hv : ∀ u, Yields (fun _ => True) K (value u)) :
    Yields P K (s.push value) := by
  rw [s.push_eq]
  exact (hv _).bind fun v _ => memWrite_yields (s := s.setSp _) hK (hP _) _ v

/-- A pop raises the address of its cell, or what its destination raises. -/
theorem pop_yields (hK : ∀ n, K (.invalidAddress n)) {Q : State → Prop}
    {dest : Byte → State → Except FaultKind State} (hd : ∀ v, Yields P K (dest v s))
    (hQ : ∀ u regs, P u → Q { u with regs := regs }) : Yields Q K (s.pop dest) :=
  (memRead_yields hK _).bind fun v _ => (hd v).bind fun u hu => hQ u _ hu

end

/-! ## Every handler keeps the latch, or enters a fault of a kind that its instruction can raise -/

/-- The kinds of fatal error that the handlers' rules name: a bad address, and a register operand of 8 or more (R223,
R224). `InvalidOpcode` is the fetch's (R222), and no rule raises `UnsupportedALUOperation` (R225). -/
def CanRaise (i : Instr) : FaultKind → Prop
  | .invalidAddress _ => True
  | .invalidRegister a => a ∈ i.registerOperands ∧ 8 ≤ a.toNat
  | .invalidOpcode _ _ | .unsupportedAluOperation _ => False

/-- `t` has the latch of `s` (R37). -/
def State.SameLatch (s t : State) : Prop := t.fault = s.fault

/-- The `pc <- pc + 1 + k` that ends most handlers (R116) keeps the latch and raises nothing. -/
theorem Yields.sameLatch_then_advance {s : State} {K : FaultKind → Prop} {x : Except FaultKind State}
    (hx : Yields s.SameLatch K x) (k : Nat) : Yields s.SameLatch K (x >>= fun u => pure (u.advance k)) :=
  hx.bind fun _ hu => hu

/-- What JMP and the taken branches do: read the target and jump. -/
theorem jump_yields_sameLatch {s u : State} {K : FaultKind → Prop} {a : Byte}
    (hK : 8 ≤ a.toNat → K (.invalidRegister a)) (hu : s.SameLatch u) :
    Yields s.SameLatch K (u.readReg a >>= fun v => pure (u.jump v)) :=
  (readReg_yields hK).bind fun _ _ => hu

/-- Every handler keeps the latch, or is fault entry with a kind that its instruction can raise (R221 to R225). -/
theorem exec_sameLatch_or_canRaise {i : Instr} {s t : State} (h : exec i s = .next t) :
    s.SameLatch t ∨ ∃ k, CanRaise i k ∧ t = s.takeFault k := by
  have hs : s.SameLatch s := rfl
  have haddr : ∀ n, CanRaise i (.invalidAddress n) := fun _ => trivial
  have hops : ∀ a ∈ i.registerOperands, 8 ≤ a.toNat → CanRaise i (.invalidRegister a) := fun _ => And.intro
  cases i with
  | add a b | mul a b =>
    have ha := hops a (.head _)
    have hb := hops b (.tail _ (.head _))
    exact commit_yields h ((readRegs_yields ha hb).bind fun (_, _) _ =>
      (writeReg_yields ha (fun _ => hs) _).sameLatch_then_advance 2)
  | and a b =>
    have ha := hops a (.head _)
    have hb := hops b (.tail _ (.head _))
    have hread := readRegs_yields (s := s) ha hb
    refine commit_yields h ?_
    split
    · exact (writeReg_yields ha (fun _ => hs) _).sameLatch_then_advance 2
    · next hk =>
      split
      · exact hs
      · rwa [hk] at hread
  | cmp a b =>
    exact commit_yields h ((readRegs_yields (hops a (.head _)) (hops b (.tail _ (.head _)))).bind fun (_, _) _ => hs)
  | jmp a => exact commit_yields h (jump_yields_sameLatch (hops a (.head _)) hs)
  | jeq a =>
    refine commit_yields h ?_
    split
    · exact jump_yields_sameLatch (hops a (.head _)) hs
    · exact hs
  | jne a =>
    refine commit_yields h ?_
    split
    · exact hs
    · exact jump_yields_sameLatch (hops a (.head _)) hs
  | call a =>
    have ha := hops a (.head _)
    exact commit_yields h ((checkReg_yields ha).bind fun _ _ => (returnAddress_yields haddr).bind fun _ _ =>
      (push_yields haddr (fun _ _ => hs) fun _ => yields_ok.2 trivial).bind fun _ hu => jump_yields_sameLatch ha hu)
  | ret => exact commit_yields h (pop_yields haddr (P := s.SameLatch) (fun _ => hs) fun _ _ hu => hu)
  | push a =>
    have ha := hops a (.head _)
    exact commit_yields h ((checkReg_yields ha).bind fun _ _ =>
      (push_yields haddr (fun _ _ => hs) fun _ => readReg_yields ha).sameLatch_then_advance 1)
  | pop a =>
    have ha := hops a (.head _)
    exact commit_yields h ((checkReg_yields ha).bind fun _ _ =>
      (pop_yields haddr (P := s.SameLatch) (writeReg_yields ha fun _ => hs) fun _ _ hu => hu).sameLatch_then_advance 1)
  | ldi a imm =>
    exact commit_yields h ((writeReg_yields (hops a (.head _)) (fun _ => hs) imm).sameLatch_then_advance 2)
  | st a b =>
    exact commit_yields h ((readRegs_yields (hops a (.head _)) (hops b (.tail _ (.head _)))).bind fun (_, _) _ =>
      (memWrite_yields haddr (fun _ => hs) _ _).sameLatch_then_advance 2)
  | prn a | pra a => exact commit_yields h ((readReg_yields (hops a (.head _))).bind fun _ _ => hs)
  | hlt => exact commit_yields h hs

/-! ## The kind in the latch -/

/-- What a handler that starts with an empty latch leaves in it is of a kind that its instruction can raise. -/
theorem canRaise_of_exec_fault {i : Instr} {s t : State} {r : FaultRecord} (hs : s.fault = none)
    (h : exec i s = .next t) (ht : t.fault = some r) : CanRaise i r.kind := by
  rcases exec_sameLatch_or_canRaise h with hsame | ⟨k, hk, rfl⟩
  · have hnone : t.fault = none := hsame.trans hs
    rw [hnone] at ht
    cases ht
  · cases ht
    exact hk

/-- A step leaves in the latch what its fetch raised, or a kind that the fetched instruction can raise. -/
theorem fetch_error_or_canRaise_of_step_fault {s t : State} {r : FaultRecord} (h : step s = .next t)
    (ht : t.fault = some r) : s.fetch = .error r.kind ∨ ∃ i, s.fetch = .ok i ∧ CanRaise i r.kind := by
  obtain ⟨hf, -, ⟨i, hi, hexec⟩ | ⟨k, hk, rfl⟩⟩ := step_cases s h
  · exact .inr ⟨i, hi, canRaise_of_exec_fault hf hexec ht⟩
  · cases ht
    exact .inl hk

/-! ## The obligation -/

/-- No rule of a handler names `UnsupportedALUOperation` (R225). -/
theorem not_canRaise_unsupportedAluOperation (i : Instr) (tag : Opcode) :
    ¬ CanRaise i (.unsupportedAluOperation tag) := id

/-- A fetch raises `InvalidAddress` or `InvalidOpcode` only (R112 to R114). -/
theorem State.fetch_ne_unsupportedAluOperation (s : State) (tag : Opcode) :
    s.fetch ≠ .error (.unsupportedAluOperation tag) := by
  intro h
  rcases Nat.lt_or_ge s.pc s.params.memSize with hpc | hpc
  · rcases s.fetch_eq_error hpc h with hk | ⟨_, -, hk⟩ <;> cases hk
  · rw [s.fetch_of_pc_ge hpc] at h
    cases h

/-- Settles O19: the kind that a step leaves in the latch is the fetch's or one that the instruction can raise, and
neither is `UnsupportedALUOperation`. -/
theorem unsupportedAluOperationNeverRaised : Obligations.UnsupportedAluOperationNeverRaised := by
  refine ⟨fun s t r tag h ht htag => ?_, fun i s t r tag hs h ht htag => ?_⟩
  · rcases fetch_error_or_canRaise_of_step_fault h ht with hfetch | ⟨i, -, hi⟩
    · exact s.fetch_ne_unsupportedAluOperation tag (htag ▸ hfetch)
    · exact not_canRaise_unsupportedAluOperation i tag (htag ▸ hi)
  · exact not_canRaise_unsupportedAluOperation i tag (htag ▸ canRaise_of_exec_fault hs h ht)

end Sys2Proof.Machine
end

section
/-! PROOFS. The encoding: decoder and encoder are inverse to each other (R80, R84, R88), and the bytes that are in no
row of the dispatch table are counted (R90). -/

namespace Sys2Proof

/-! ## The decoder on a list of bytes -/

/-- `decode` answers what the decoder reads from the list, and the bytes after it. -/
theorem decode_eq_ok {m : OpcodeMap} {bytes rest : List Byte} {i : Instr} :
    decode m bytes = .ok (i, rest) ↔
      decodeFrom m (byteAt bytes) .unknownOpcode = .ok i ∧ bytes.drop i.length = rest := by
  unfold decode
  cases hd : decodeFrom m (byteAt bytes) .unknownOpcode with
  | error e => simp
  | ok j =>
    simp only [Except.ok.injEq, Prod.mk.injEq]
    refine and_congr_right fun hj => ?_
    rw [hj]

/-- An instruction is one byte longer than its operands (R80). -/
theorem Instr.length_eq (i : Instr) : i.length = i.operands.length + 1 := by
  rw [Instr.length, i.length_operands, Nat.add_comm]

/-- The opcode byte of an encoding is found under the instruction's label, and the operand bytes follow it. -/
theorem decodeFrom_encode_append {m : OpcodeMap} (hm : m.Injective) (i : Instr) (rest : List Byte) :
    decodeFrom m (byteAt (encode m i ++ rest)) .unknownOpcode = .ok i := by
  refine decodeFrom_eq_ok.2 ⟨m.byteOf i.opcode, rfl, OpcodeMap.lookup_byteOf hm _, fun j hj => byteAt_eq_ok.2 ?_⟩
  have hget : (encode m i ++ rest)[1 + j]? = some i.operands[j] := by
    rw [Nat.add_comm, encode, List.cons_append, List.getElem?_cons_succ, List.getElem?_append_left hj,
      List.getElem?_eq_getElem hj]
  exact List.getElem?_eq_some_iff.1 hget

/-- Bytes from which the decoder reads `i` begin with `i`'s encoding. -/
theorem take_eq_encode_of_decodeFrom {m : OpcodeMap} {bytes : List Byte} {i : Instr}
    (h : decodeFrom m (byteAt bytes) .unknownOpcode = .ok i) : bytes.take i.length = encode m i := by
  obtain ⟨op, hop, hl, hops⟩ := decodeFrom_eq_ok.1 h
  rw [← OpcodeMap.byteOf_of_lookup hl] at hop
  cases bytes with
  | nil => cases hop
  | cons b bs =>
    obtain rfl : b = m.byteOf i.opcode := Except.ok.inj hop
    have hbs : ∀ j (hj : j < i.operands.length), bs[j]? = some i.operands[j] := fun j hj => by
      obtain ⟨hlt, hj'⟩ := byteAt_eq_ok.1 (hops j hj)
      rw [← hj', ← List.getElem?_eq_getElem hlt, Nat.add_comm, List.getElem?_cons_succ]
    have htake : bs.take i.operands.length = i.operands := by
      refine List.ext_getElem? fun j => ?_
      rcases Nat.lt_or_ge j i.operands.length with hj | hj
      · rw [List.getElem?_take_of_lt hj, hbs j hj, List.getElem?_eq_getElem hj]
      · rw [List.getElem?_take_eq_none hj, List.getElem?_eq_none hj]
    rw [i.length_eq, List.take_succ_cons, htake, encode]

/-- Settles O8: an injective map finds each label under its own byte, and the operand bytes are read as they were
written. -/
theorem decodeEncodeAgree : Obligations.DecodeEncodeAgree := by
  intro m hm i rest
  refine decode_eq_ok.2 ⟨decodeFrom_encode_append hm i rest, List.drop_left' ?_⟩
  rw [encode, List.length_cons, i.length_eq]

/-- Settles O9: the bytes are what was read, then what was left. -/
theorem encodeDecodeAgree : Obligations.EncodeDecodeAgree := by
  intro m bytes i rest h
  obtain ⟨hd, rfl⟩ := decode_eq_ok.1 h
  rw [← take_eq_encode_of_decodeFrom hd, List.take_append_drop]

/-- Settles O10, by running the decoder on each word. -/
theorem publishedWordsDecode : Obligations.PublishedWordsDecode :=
  ⟨rfl, rfl, rfl, rfl, rfl, rfl, rfl, rfl⟩

/-! ## Counting the illegal opcodes (R90) -/

/-- The byte values that are some label's. -/
def OpcodeMap.byteValues (m : OpcodeMap) : List Nat := (Opcode.all.map m.byteOf).map BitVec.toNat

theorem OpcodeMap.nodup_byteValues {m : OpcodeMap} (hm : m.Injective) : m.byteValues.Nodup :=
  List.Nodup.map (fun _ _ => BitVec.eq_of_toNat_eq) hm

/-- The values that a row of the table is found under are those of the labels' bytes. -/
theorem OpcodeMap.mem_byteValues {m : OpcodeMap} {n : Nat} :
    n ∈ m.byteValues ↔ n < 256 ∧ m.lookup (BitVec.ofNat 8 n) ≠ none := by
  simp only [OpcodeMap.byteValues, List.map_map, List.mem_map, Function.comp_apply, ne_eq, OpcodeMap.lookup_eq_none,
    not_forall, not_not]
  constructor
  · rintro ⟨o, -, rfl⟩
    exact ⟨(m.byteOf o).isLt, o, by rw [BitVec.ofNat_toNat, BitVec.setWidth_eq]⟩
  · rintro ⟨hn, o, ho⟩
    exact ⟨o, o.mem_all, by rw [ho, BitVec.toNat_ofNat, Nat.mod_eq_of_lt hn]⟩

/-- An injective map has sixteen legal opcode bytes: as many as there are labels (R88). -/
theorem OpcodeMap.countP_legal {m : OpcodeMap} (hm : m.Injective) :
    (List.range 256).countP (fun n => !(m.lookup (BitVec.ofNat 8 n) == none)) = 16 := by
  have hperm : ((List.range 256).filter fun n => !(m.lookup (BitVec.ofNat 8 n) == none)).Perm m.byteValues := by
    refine (List.perm_ext_iff_of_nodup (List.nodup_range.filter _) (OpcodeMap.nodup_byteValues hm)).2 fun n => ?_
    simp only [List.mem_filter, List.mem_range, OpcodeMap.mem_byteValues, Bool.not_eq_true', beq_eq_false_iff_ne]
  rw [List.countP_eq_length_filter, hperm.length_eq]
  rfl

/-- Settles O11: the legal values are sixteen of the 256. -/
theorem illegalOpcodesAre240 : Obligations.IllegalOpcodesAre240 := by
  refine ⟨fun m hm => ?_, by decide, rfl⟩
  have hlegal := OpcodeMap.countP_legal hm
  have htotal := List.length_eq_countP_add_countP (fun n => m.lookup (BitVec.ofNat 8 n) == none) (l := List.range 256)
  simp only [Bool.not_eq_true, Bool.decide_eq_false, List.length_range, hlegal] at htotal
  omega

end Sys2Proof
end

section
/-! PROOFS. The host events (R260 to R265): the state after Reset, what a Load and a Run answer, and the launch that they
make together. -/

namespace Sys2Proof.Machine

/-! ## Reset (R41, R260) -/

/-- Registers 0 to 6 after reset (D12). -/
theorem resetRegs_of_lt_seven : ∀ (r : Nat) (h : r < 7), resetRegs[r] = 0 := by decide

/-- Reset meets the invariant for every admitted parameters. -/
theorem resetWith_inv {p : Params} (hp : p.Admitted) : (State.resetWith p).Inv :=
  ⟨Memory.reset_wf p, fun _ hc => absurd hc List.not_mem_nil, hp, Nat.zero_le _, fun h => absurd rfl h⟩

theorem referenceParams_admitted : referenceParams.Admitted :=
  ⟨show 1 ≤ 256 by decide, show 256 ≤ 256 by decide, show OpcodeMap.published.Injective by decide⟩

/-- Settles O1: every item is read off the reset state. -/
theorem resetState : Obligations.ResetState :=
  ⟨fun _ => ⟨fun _ => rfl, resetRegs_of_lt_seven, rfl, rfl, rfl, rfl, rfl, rfl, rfl⟩, rfl⟩

/-- Settles O2: memory is empty, `pc` is 0 and the latch is empty. -/
theorem resetMeetsStateInvariant : Obligations.ResetMeetsStateInvariant :=
  ⟨fun _ => resetWith_inv, resetWith_inv referenceParams_admitted⟩

section
variable {s : State} {bytes : List Byte}

/-! ## Load (R261) -/

theorem hostLoad_of_stopped (hs : s.engineState = .stopped) (hlen : bytes.length ≤ s.params.memSize) :
    hostLoad bytes s = some { s with mem := s.mem.writeBytes loadBase bytes } := if_pos ⟨hs, hlen⟩

theorem hostLoad_of_too_long (h : s.params.memSize < bytes.length) : hostLoad bytes s = none :=
  if_neg fun ⟨_, hlen⟩ => absurd h (Nat.not_lt.2 hlen)

theorem hostLoad_of_not_stopped (h : s.engineState ≠ .stopped) : hostLoad bytes s = none :=
  if_neg fun ⟨hs, _⟩ => h hs

/-- Byte `i` of a loaded sequence lies at address `i`. -/
theorem Memory.read_load_inside (m : Memory) {i : Nat} (h : i < bytes.length) :
    (m.writeBytes loadBase bytes).read i = bytes[i] := by
  simpa [loadBase] using m.read_writeBytes_inside loadBase i bytes h

/-- The cells above a loaded sequence keep their contents. -/
theorem Memory.read_load_outside (m : Memory) {a : Nat} (h : bytes.length ≤ a) :
    (m.writeBytes loadBase bytes).read a = m.read a :=
  m.read_writeBytes_outside loadBase a bytes (.inr (by rwa [loadBase, Nat.zero_add]))

/-- A Load of a sequence that fits keeps the invariant. -/
theorem State.Inv.load (hs : s.Inv) (hlen : bytes.length ≤ s.params.memSize) :
    ({ s with mem := s.mem.writeBytes loadBase bytes } : State).Inv := by
  obtain ⟨hwf, hwithin, hrest⟩ := hs
  exact ⟨Memory.writeBytes_wf hwf _ _, Memory.writeBytes_within hwithin (by rwa [loadBase, Nat.zero_add]), hrest⟩

/-! ## Run (R262) -/

theorem hostRun_of_stopped (h : s.engineState = .stopped) : hostRun s = some (s.setRunning true) := by
  simp [hostRun, h]

theorem hostRun_of_faulted (h : s.engineState = .faulted) : hostRun s = some s := by
  simp [hostRun, h]

theorem hostRun_of_running (h : s.engineState = .running) : hostRun s = none := by
  simp [hostRun, h]

/-- A Stopped engine whose running flag is set is Running (R39). -/
theorem setRunning_true_running (h : s.engineState = .stopped) : (s.setRunning true).engineState = .running :=
  (s.setRunning true).engineState_eq_running.2 ⟨(s.engineState_eq_stopped.1 h).1, rfl⟩

end

/-! ## The obligations about Load and Run -/

/-- Settles O4: a Load is one write of consecutive cells. -/
theorem loadPlacesProgram : Obligations.LoadPlacesProgram :=
  ⟨fun _ s hs hlen => ⟨_, hostLoad_of_stopped hs hlen, fun _ => s.mem.read_load_inside, fun _ => s.mem.read_load_outside,
      rfl, fun hinv => hinv.load hlen⟩,
    fun _ _ => hostLoad_of_too_long, fun _ _ => hostLoad_of_not_stopped⟩

/-- Settles O5, by the three engine states. -/
theorem runStartsStoppedEngine : Obligations.RunStartsStoppedEngine :=
  ⟨fun _ h => ⟨hostRun_of_stopped h, setRunning_true_running h⟩, fun _ => hostRun_of_faulted,
    fun _ => hostRun_of_running⟩

/-! ## The launch, and a second Run (R42, R263, R265) -/

theorem hostReset_stopped (p : Params) : (hostReset p).engineState = .stopped := rfl

/-- Reset, Load, Run: the loaded bytes in zeroed memory, with the engine started. -/
theorem launch_of_fits {p : Params} {bytes : List Byte} (hlen : bytes.length ≤ p.memSize) :
    launch p bytes = some { hostReset p with mem := Memory.writeBytes [] loadBase bytes, running := true } := by
  rw [launch, hostLoad_of_stopped (hostReset_stopped p) hlen, Option.bind_some]
  exact hostRun_of_stopped (hostReset_stopped p)

/-- Settles O6: what lies above the loaded bytes is the zeroed memory of Reset. -/
theorem launchState : Obligations.LaunchState := fun _ _ hlen =>
  ⟨_, launch_of_fits hlen, fun _ => Memory.read_load_inside [], fun _ => Memory.read_load_outside [], rfl, rfl⟩

/-- Settles O7: the halting step cleared the running flag and did nothing else, so setting the flag undoes it. -/
theorem rerunExecutesSameHalt : Obligations.RerunExecutesSameHalt := by
  intro s t h ht
  obtain ⟨hf, hr⟩ := s.engineState_eq_running.1 (running_of_step h)
  obtain ⟨-, rfl⟩ := fetch_hlt_of_step_running_false h ht
  have hundo : (s.setRunning false).setRunning true = s := by
    cases s
    cases hr
    rfl
  exact ⟨_, hostRun_of_stopped (setRunning_false_stopped hf), hundo, hundo.symm ▸ h⟩

end Sys2Proof.Machine
end

section
/-! PROOFS. AND by its mode (R133), CMP (R134), and the checks of CALL, PUSH and POP in their order (R153, R173, R174);
with the equations of the sections before, every handler has one for each way it can end. -/

namespace Sys2Proof.Machine

section
variable {s : State} {a b : Byte}

/-! ## AND (R133) -/

/-- AND writes back what it read from its first operand, so no register changes (R133). -/
theorem exec_and_of_noop (hm : s.params.andMode = .noop) : exec (.and a b) s = .next { s with pc := s.pc + 3 } := by
  cases hread : s.readRegs a b with
  | error k => simp [exec, execAnd, hread, hm, State.advance]
  | ok v =>
    obtain ⟨va, hva, hrest⟩ := except_bind_eq_ok hread
    obtain ⟨vb, -, hpair⟩ := except_bind_eq_ok hrest
    obtain rfl : (va, vb) = v := Except.ok.inj hpair
    have ha : a.toNat < 8 := Nat.lt_of_not_ge fun hge => by
      rw [s.readReg_of_ge hge] at hva
      cases hva
    obtain rfl : s.regs[a.toNat] = va := Except.ok.inj ((s.readReg_of_lt ha).symm.trans hva)
    simp [exec, execAnd, hread, hm, andValue, s.writeReg_of_lt _ ha, State.advance]

theorem exec_and_of_bitwise (hm : s.params.andMode = .bitwise) (ha : a.toNat < 8) (hb : b.toNat < 8) :
    exec (.and a b) s = .next { s with
      regs := s.regs.set a.toNat (s.regs[a.toNat] &&& s.regs[b.toNat])
      pc := s.pc + 3 } := by
  simp [exec, execAnd, s.readRegs_of_lt ha hb, s.writeReg_of_lt _ ha, hm, andValue, State.advance]

theorem exec_and_of_bitwise_of_error {k : FaultKind} (hm : s.params.andMode = .bitwise)
    (hk : s.readRegs a b = .error k) : exec (.and a b) s = .next (s.takeFault k) := by
  simp [exec, execAnd, hk, hm]

/-! ## CMP (R134) -/

theorem exec_cmp_of_lt (ha : a.toNat < 8) (hb : b.toNat < 8) :
    exec (.cmp a b) s = .next { s with
      flags := compareFlags s.regs[a.toNat] s.regs[b.toNat]
      pc := s.pc + 3 } := by
  simp [exec, execCmp, s.readRegs_of_lt ha hb, State.setFlags, State.advance]

theorem exec_cmp_of_error {k : FaultKind} (hk : s.readRegs a b = .error k) :
    exec (.cmp a b) s = .next (s.takeFault k) := by
  simp [exec, execCmp, hk]

theorem compareFlags_equal (x y : Byte) : (compareFlags x y).equal = true ↔ x = y := by
  rw [compareFlags, decide_eq_true_iff, BitVec.toNat_inj]

/-- The order of two bytes is one of three, so exactly one flag is true (R134). -/
theorem compareFlags_count_true (x y : Byte) :
    [(compareFlags x y).equal, (compareFlags x y).greater, (compareFlags x y).less].count true = 1 := by
  rcases Nat.lt_trichotomy x.toNat y.toNat with h | h | h
  · simp [compareFlags, h, h.ne, h.le]
  · simp [compareFlags, h]
  · simp [compareFlags, h, h.ne', h.le]

/-! ## The failing checks of CALL, PUSH and POP (R153, R173, R174) -/

theorem exec_call_of_ge (ha : 8 ≤ a.toNat) : exec (.call a) s = .next (s.takeFault (.invalidRegister a)) := by
  simp [exec, execCall, checkReg_of_ge ha]

theorem exec_call_of_pc_gt (ha : a.toNat < 8) (hpc : 255 < s.pc + 2) :
    exec (.call a) s = .next (s.takeFault (.invalidAddress (s.pc + 2))) := by
  simp [exec, execCall, checkReg_of_lt ha, s.returnAddress_of_gt hpc]

theorem exec_call_of_sp_ge (ha : a.toNat < 8) (hpc : s.pc + 2 ≤ 255) (h : s.params.memSize ≤ (s.sp - 1).toNat) :
    exec (.call a) s = .next (s.takeFault (.invalidAddress (s.sp - 1).toNat)) := by
  have hpush := s.push_of_ge (value := fun _ => .ok (BitVec.ofNat 8 (s.pc + 2))) rfl h
  simp [exec, execCall, checkReg_of_lt ha, s.returnAddress_of_le hpc, hpush]

theorem exec_push_of_ge (ha : 8 ≤ a.toNat) : exec (.push a) s = .next (s.takeFault (.invalidRegister a)) := by
  simp [exec, execPush, checkReg_of_ge ha]

theorem exec_pop_of_ge (ha : 8 ≤ a.toNat) : exec (.pop a) s = .next (s.takeFault (.invalidRegister a)) := by
  simp [exec, execPop, checkReg_of_ge ha]

theorem exec_pop_of_sp_ge (ha : a.toNat < 8) (h : s.params.memSize ≤ s.sp.toNat) :
    exec (.pop a) s = .next (s.takeFault (.invalidAddress s.sp.toNat)) := by
  simp [exec, execPop, checkReg_of_lt ha, s.pop_of_ge _ h]

/-! ## Register 7 as the operand (R177) -/

theorem push_seven {q : Byte} (hq : q = s.sp - 1) (h : q.toNat < s.params.memSize) :
    ∃ t, exec (.push 7) s = .next t ∧ t.sp = q ∧ t.mem.read q.toNat = q := by
  subst hq
  refine ⟨_, exec_push_of_lt (by decide) h, s.setSp_sp _, ?_⟩
  rw [Memory.read_write_same]
  exact s.regs_set_same 7 _ (by decide)

theorem pop_seven {v : Byte} (h : s.sp.toNat < s.params.memSize) (hv : v = s.mem.read s.sp.toNat) :
    ∃ t, exec (.pop 7) s = .next t ∧ t.sp = v + 1 := by
  subst hv
  refine ⟨_, exec_pop_of_lt (by decide) h, ?_⟩
  simp [State.sp]

theorem call_seven {q : Byte} (hq : q = s.sp - 1) (h : q.toNat < s.params.memSize) (hpc : s.pc + 2 ≤ 255) :
    ∃ t, exec (.call 7) s = .next t ∧ t.sp = q ∧ (t.mem.read q.toNat).toNat = s.pc + 2 ∧ t.pc = q.toNat := by
  subst hq
  refine ⟨_, exec_call_of_lt (by decide) hpc h, s.setSp_sp _, ?_, ?_⟩
  · rw [Memory.read_write_same, BitVec.toNat_ofNat, Nat.mod_eq_of_lt (by omega)]
  · exact congrArg BitVec.toNat (s.regs_set_same 7 _ (by decide))

end

/-! ## The obligations -/

/-- Settles O22: the two modes are two equations, and only `bitwise` lets the register checks raise. -/
theorem andByMode : Obligations.AndByMode :=
  ⟨fun _ _ _ => rfl, fun _ _ _ => exec_and_of_noop,
    fun _ _ _ ha hb hm => ⟨_, fun _ => BitVec.getLsbD_and, exec_and_of_bitwise hm ha hb⟩,
    fun _ _ s hm ha => exec_and_of_bitwise_of_error hm (s.readRegs_of_ge_left ha),
    fun _ _ s hm ha hb => exec_and_of_bitwise_of_error hm (s.readRegs_of_ge_right ha hb)⟩

/-- Settles O23: the flags are `compareFlags` of the two registers. -/
theorem cmpSetsAllFlags : Obligations.CmpSetsAllFlags :=
  ⟨fun _ _ _ => rfl,
    fun a b s ha hb => ⟨compareFlags s.regs[a.toNat] s.regs[b.toNat], compareFlags_equal _ _, decide_eq_true_iff,
      decide_eq_true_iff, compareFlags_count_true _ _, exec_cmp_of_lt ha hb⟩,
    fun _ _ s ha => exec_cmp_of_error (s.readRegs_of_ge_left ha),
    fun _ _ s ha hb => exec_cmp_of_error (s.readRegs_of_ge_right ha hb)⟩

/-- Settles O27: CALL's three checks come in the order operand, return address, cell. -/
theorem callPushesReturnAddress : Obligations.CallPushesReturnAddress :=
  ⟨fun _ _ => rfl, fun _ _ => exec_call_of_lt, fun _ _ => exec_call_of_ge, fun _ _ => exec_call_of_pc_gt,
    fun _ _ => exec_call_of_sp_ge⟩

/-- Settles O29: PUSH checks its operand, then its cell. -/
theorem pushStoresBelowStackPointer : Obligations.PushStoresBelowStackPointer :=
  ⟨fun _ _ => rfl, fun _ _ => exec_push_of_lt, fun _ _ => exec_push_of_ge, fun _ _ => exec_push_of_sp_ge⟩

/-- Settles O30: POP checks its operand, then its cell. -/
theorem popReadsStackTop : Obligations.PopReadsStackTop :=
  ⟨fun _ _ => rfl, fun _ _ => exec_pop_of_lt, fun _ _ => exec_pop_of_ge, fun _ _ => exec_pop_of_sp_ge⟩

/-- Settles O32: a read of register 7 after the decrement gives the decremented pointer, and the increment of a pop
comes after the write of the popped byte. -/
theorem registerSevenAsOperand : Obligations.RegisterSevenAsOperand :=
  ⟨fun _ _ => push_seven, fun _ _ => pop_seven, fun _ _ => call_seven⟩

end Sys2Proof.Machine
end

section
/-! PROOFS. Everything a handler can do, said once: `Completes` is what it answers when it completes, `Raises` the fatal
error it enters otherwise, and `exec_eq_next` that there is nothing else. Frames and invariants are read off them. -/

namespace Sys2Proof.Machine

/-! ## How a handler ends -/

/-- `t` is what the handler of an instruction answers from `s` when no check of its rule fails (R131 to R194). -/
inductive Completes (s : State) : Instr → State → Prop
  | add {a b : Byte} (ha : a.toNat < 8) (hb : b.toNat < 8) : Completes s (.add a b)
      { s with regs := s.regs.set a.toNat (s.regs[a.toNat] + s.regs[b.toNat]), pc := s.pc + 3 }
  | mul {a b : Byte} (ha : a.toNat < 8) (hb : b.toNat < 8) : Completes s (.mul a b)
      { s with regs := s.regs.set a.toNat (s.regs[a.toNat] * s.regs[b.toNat]), pc := s.pc + 3 }
  | andNoop {a b : Byte} (hm : s.params.andMode = .noop) : Completes s (.and a b) { s with pc := s.pc + 3 }
  | andBitwise {a b : Byte} (hm : s.params.andMode = .bitwise) (ha : a.toNat < 8) (hb : b.toNat < 8) :
      Completes s (.and a b)
        { s with regs := s.regs.set a.toNat (s.regs[a.toNat] &&& s.regs[b.toNat]), pc := s.pc + 3 }
  | cmp {a b : Byte} (ha : a.toNat < 8) (hb : b.toNat < 8) : Completes s (.cmp a b)
      { s with flags := compareFlags s.regs[a.toNat] s.regs[b.toNat], pc := s.pc + 3 }
  | jmp {a : Byte} (ha : a.toNat < 8) : Completes s (.jmp a) { s with pc := s.regs[a.toNat].toNat }
  | jeqTaken {a : Byte} (hE : s.flags.equal = true) (ha : a.toNat < 8) :
      Completes s (.jeq a) { s with pc := s.regs[a.toNat].toNat }
  | jeqNotTaken {a : Byte} (hE : s.flags.equal = false) : Completes s (.jeq a) { s with pc := s.pc + 2 }
  | jneTaken {a : Byte} (hE : s.flags.equal = false) (ha : a.toNat < 8) :
      Completes s (.jne a) { s with pc := s.regs[a.toNat].toNat }
  | jneNotTaken {a : Byte} (hE : s.flags.equal = true) : Completes s (.jne a) { s with pc := s.pc + 2 }
  | call {a : Byte} (ha : a.toNat < 8) (hpc : s.pc + 2 ≤ 255) (h : (s.sp - 1).toNat < s.params.memSize) :
      Completes s (.call a)
        { s with
          regs := s.regs.set 7 (s.sp - 1)
          mem := s.mem.write (s.sp - 1).toNat (BitVec.ofNat 8 (s.pc + 2))
          pc := (s.regs.set 7 (s.sp - 1))[a.toNat].toNat }
  | ret (h : s.sp.toNat < s.params.memSize) : Completes s .ret
      { s with regs := s.regs.set 7 (s.sp + 1), pc := (s.mem.read s.sp.toNat).toNat }
  | push {a : Byte} (ha : a.toNat < 8) (h : (s.sp - 1).toNat < s.params.memSize) : Completes s (.push a)
      { s with
        regs := s.regs.set 7 (s.sp - 1)
        mem := s.mem.write (s.sp - 1).toNat (s.regs.set 7 (s.sp - 1))[a.toNat]
        pc := s.pc + 2 }
  | pop {a : Byte} (ha : a.toNat < 8) (h : s.sp.toNat < s.params.memSize) : Completes s (.pop a)
      { s with
        regs := (s.regs.set a.toNat (s.mem.read s.sp.toNat)).set 7
          ((s.regs.set a.toNat (s.mem.read s.sp.toNat))[7] + 1)
        pc := s.pc + 2 }
  | ldi {a imm : Byte} (ha : a.toNat < 8) : Completes s (.ldi a imm)
      { s with regs := s.regs.set a.toNat imm, pc := s.pc + 3 }
  | st {a b : Byte} (ha : a.toNat < 8) (hb : b.toNat < 8) (h : s.regs[a.toNat].toNat < s.params.memSize) :
      Completes s (.st a b)
        { s with mem := s.mem.write s.regs[a.toNat].toNat s.regs[b.toNat], pc := s.pc + 3 }
  | prn {a : Byte} (ha : a.toNat < 8) : Completes s (.prn a)
      { s with out := s.out ++ [{ kind := .prn, value := s.regs[a.toNat] }], pc := s.pc + 2 }
  | pra {a : Byte} (ha : a.toNat < 8) : Completes s (.pra a)
      { s with out := s.out ++ [{ kind := .pra, value := s.regs[a.toNat] }], pc := s.pc + 2 }
  | hlt : Completes s .hlt { s with running := false }

/-- The handler of an instruction raises this kind of fatal error from `s`: the first check of its rule that fails
(R118, R229). -/
inductive Raises (s : State) : Instr → FaultKind → Prop
  | left {i : Instr} {a b : Byte} (hi : i ∈ [.add a b, .mul a b, .cmp a b, .st a b]) (ha : 8 ≤ a.toNat) :
      Raises s i (.invalidRegister a)
  | right {i : Instr} {a b : Byte} (hi : i ∈ [.add a b, .mul a b, .cmp a b, .st a b]) (ha : a.toNat < 8)
      (hb : 8 ≤ b.toNat) : Raises s i (.invalidRegister b)
  | andLeft {a b : Byte} (hm : s.params.andMode = .bitwise) (ha : 8 ≤ a.toNat) :
      Raises s (.and a b) (.invalidRegister a)
  | andRight {a b : Byte} (hm : s.params.andMode = .bitwise) (ha : a.toNat < 8) (hb : 8 ≤ b.toNat) :
      Raises s (.and a b) (.invalidRegister b)
  | only {i : Instr} {a imm : Byte} (hi : i ∈ [.jmp a, .call a, .push a, .pop a, .ldi a imm, .prn a, .pra a])
      (ha : 8 ≤ a.toNat) : Raises s i (.invalidRegister a)
  | jeq {a : Byte} (hE : s.flags.equal = true) (ha : 8 ≤ a.toNat) : Raises s (.jeq a) (.invalidRegister a)
  | jne {a : Byte} (hE : s.flags.equal = false) (ha : 8 ≤ a.toNat) : Raises s (.jne a) (.invalidRegister a)
  | callReturnAddress {a : Byte} (ha : a.toNat < 8) (hpc : 255 < s.pc + 2) :
      Raises s (.call a) (.invalidAddress (s.pc + 2))
  | callCell {a : Byte} (ha : a.toNat < 8) (hpc : s.pc + 2 ≤ 255) (h : s.params.memSize ≤ (s.sp - 1).toNat) :
      Raises s (.call a) (.invalidAddress (s.sp - 1).toNat)
  | pushCell {a : Byte} (ha : a.toNat < 8) (h : s.params.memSize ≤ (s.sp - 1).toNat) :
      Raises s (.push a) (.invalidAddress (s.sp - 1).toNat)
  | popCell {a : Byte} (ha : a.toNat < 8) (h : s.params.memSize ≤ s.sp.toNat) :
      Raises s (.pop a) (.invalidAddress s.sp.toNat)
  | retCell (h : s.params.memSize ≤ s.sp.toNat) : Raises s .ret (.invalidAddress s.sp.toNat)
  | stCell {a b : Byte} (ha : a.toNat < 8) (hb : b.toNat < 8) (h : s.params.memSize ≤ s.regs[a.toNat].toNat) :
      Raises s (.st a b) (.invalidAddress s.regs[a.toNat].toNat)

/-! ## The two relations are `exec` -/

section
variable {i : Instr} {s t : State} {k : FaultKind}

theorem exec_of_completes (h : Completes s i t) : exec i s = .next t := by
  cases h with
  | add ha hb | mul ha hb => exact commit_combineRegs_of_lt s _ ha hb
  | andNoop hm => exact exec_and_of_noop hm
  | andBitwise hm ha hb => exact exec_and_of_bitwise hm ha hb
  | cmp ha hb => exact exec_cmp_of_lt ha hb
  | jmp ha => exact exec_jmp_of_lt ha
  | jeqTaken hE ha => exact (exec_jeq_of_equal hE).trans (exec_jmp_of_lt ha)
  | jeqNotTaken hE => exact exec_jeq_of_not_equal hE
  | jneTaken hE ha => exact (exec_jne_of_not_equal hE).trans (exec_jmp_of_lt ha)
  | jneNotTaken hE => exact exec_jne_of_equal hE
  | call ha hpc h => exact exec_call_of_lt ha hpc h
  | ret h => exact exec_ret_of_lt h
  | push ha h => exact exec_push_of_lt ha h
  | pop ha h => exact exec_pop_of_lt ha h
  | ldi ha => exact exec_ldi_of_lt _ ha
  | st ha hb h => exact exec_st_of_address_lt ha hb h
  | prn ha | pra ha => exact commit_emitReg_of_lt s _ ha
  | hlt => exact exec_hlt s

theorem exec_of_raises (h : Raises s i k) : exec i s = .next (s.takeFault k) := by
  cases h with
  | left hi ha =>
    simp only [List.mem_cons, List.not_mem_nil, or_false] at hi
    rcases hi with rfl | rfl | rfl | rfl
    · exact commit_combineRegs_of_ge_left s _ ha
    · exact commit_combineRegs_of_ge_left s _ ha
    · exact exec_cmp_of_error (s.readRegs_of_ge_left ha)
    · exact exec_st_of_ge_left ha
  | right hi ha hb =>
    simp only [List.mem_cons, List.not_mem_nil, or_false] at hi
    rcases hi with rfl | rfl | rfl | rfl
    · exact commit_combineRegs_of_ge_right s _ ha hb
    · exact commit_combineRegs_of_ge_right s _ ha hb
    · exact exec_cmp_of_error (s.readRegs_of_ge_right ha hb)
    · exact exec_st_of_ge_right ha hb
  | andLeft hm ha => exact exec_and_of_bitwise_of_error hm (s.readRegs_of_ge_left ha)
  | andRight hm ha hb => exact exec_and_of_bitwise_of_error hm (s.readRegs_of_ge_right ha hb)
  | only hi ha =>
    simp only [List.mem_cons, List.not_mem_nil, or_false] at hi
    rcases hi with rfl | rfl | rfl | rfl | rfl | rfl | rfl
    · exact exec_jmp_of_ge ha
    · exact exec_call_of_ge ha
    · exact exec_push_of_ge ha
    · exact exec_pop_of_ge ha
    · exact exec_ldi_of_ge _ ha
    · exact commit_emitReg_of_ge s _ ha
    · exact commit_emitReg_of_ge s _ ha
  | jeq hE ha => exact (exec_jeq_of_equal hE).trans (exec_jmp_of_ge ha)
  | jne hE ha => exact (exec_jne_of_not_equal hE).trans (exec_jmp_of_ge ha)
  | callReturnAddress ha hpc => exact exec_call_of_pc_gt ha hpc
  | callCell ha hpc h => exact exec_call_of_sp_ge ha hpc h
  | pushCell ha h => exact exec_push_of_sp_ge ha h
  | popCell ha h => exact exec_pop_of_sp_ge ha h
  | retCell h => exact exec_ret_of_ge h
  | stCell ha hb h => exact exec_st_of_address_ge ha hb h

/-- The two index checks that ADD, MUL, CMP and ST make first (R118). -/
theorem pair_or_raises (a b : Byte) (hi : i ∈ [.add a b, .mul a b, .cmp a b, .st a b]) :
    (a.toNat < 8 ∧ b.toNat < 8) ∨ ∃ k, Raises s i k := by
  rcases Nat.lt_or_ge a.toNat 8 with ha | ha
  · rcases Nat.lt_or_ge b.toNat 8 with hb | hb
    · exact .inl ⟨ha, hb⟩
    · exact .inr ⟨_, .right hi ha hb⟩
  · exact .inr ⟨_, .left hi ha⟩

/-- The index check that the instructions with one register operand make first, the branches apart (R118). -/
theorem only_or_raises (a imm : Byte) (hi : i ∈ [.jmp a, .call a, .push a, .pop a, .ldi a imm, .prn a, .pra a]) :
    a.toNat < 8 ∨ ∃ k, Raises s i k :=
  (Nat.lt_or_ge a.toNat 8).imp_right fun ha => ⟨_, .only hi ha⟩

/-- Every handler completes or raises: the checks of each rule, in their order. -/
theorem completes_or_raises (i : Instr) (s : State) : (∃ t, Completes s i t) ∨ ∃ k, Raises s i k := by
  have hcell : ∀ x : Byte, x.toNat < s.params.memSize ∨ s.params.memSize ≤ x.toNat := fun _ => Nat.lt_or_ge _ _
  cases i with
  | add a b => exact (pair_or_raises a b (by simp)).imp_left fun ⟨ha, hb⟩ => ⟨_, .add ha hb⟩
  | mul a b => exact (pair_or_raises a b (by simp)).imp_left fun ⟨ha, hb⟩ => ⟨_, .mul ha hb⟩
  | cmp a b => exact (pair_or_raises a b (by simp)).imp_left fun ⟨ha, hb⟩ => ⟨_, .cmp ha hb⟩
  | st a b =>
    rcases pair_or_raises (i := .st a b) a b (by simp) with ⟨ha, hb⟩ | hk
    · exact (hcell s.regs[a.toNat]).imp (fun h => ⟨_, .st ha hb h⟩) fun h => ⟨_, .stCell ha hb h⟩
    · exact .inr hk
  | and a b =>
    cases hm : s.params.andMode with
    | noop => exact .inl ⟨_, .andNoop hm⟩
    | bitwise =>
      rcases Nat.lt_or_ge a.toNat 8 with ha | ha
      · exact (Nat.lt_or_ge b.toNat 8).imp (fun hb => ⟨_, .andBitwise hm ha hb⟩) fun hb => ⟨_, .andRight hm ha hb⟩
      · exact .inr ⟨_, .andLeft hm ha⟩
  | jmp a => exact (only_or_raises a 0 (by simp)).imp_left fun ha => ⟨_, .jmp ha⟩
  | ldi a imm => exact (only_or_raises a imm (by simp)).imp_left fun ha => ⟨_, .ldi ha⟩
  | prn a => exact (only_or_raises a 0 (by simp)).imp_left fun ha => ⟨_, .prn ha⟩
  | pra a => exact (only_or_raises a 0 (by simp)).imp_left fun ha => ⟨_, .pra ha⟩
  | jeq a =>
    cases hE : s.flags.equal with
    | false => exact .inl ⟨_, .jeqNotTaken hE⟩
    | true => exact (Nat.lt_or_ge a.toNat 8).imp (fun ha => ⟨_, .jeqTaken hE ha⟩) fun ha => ⟨_, .jeq hE ha⟩
  | jne a =>
    cases hE : s.flags.equal with
    | true => exact .inl ⟨_, .jneNotTaken hE⟩
    | false => exact (Nat.lt_or_ge a.toNat 8).imp (fun ha => ⟨_, .jneTaken hE ha⟩) fun ha => ⟨_, .jne hE ha⟩
  | call a =>
    rcases only_or_raises (i := .call a) a 0 (by simp) with ha | hk
    · rcases Nat.lt_or_ge 255 (s.pc + 2) with hpc | hpc
      · exact .inr ⟨_, .callReturnAddress ha hpc⟩
      · exact (hcell (s.sp - 1)).imp (fun h => ⟨_, .call ha hpc h⟩) fun h => ⟨_, .callCell ha hpc h⟩
    · exact .inr hk
  | push a =>
    rcases only_or_raises (i := .push a) a 0 (by simp) with ha | hk
    · exact (hcell (s.sp - 1)).imp (fun h => ⟨_, .push ha h⟩) fun h => ⟨_, .pushCell ha h⟩
    · exact .inr hk
  | pop a =>
    rcases only_or_raises (i := .pop a) a 0 (by simp) with ha | hk
    · exact (hcell s.sp).imp (fun h => ⟨_, .pop ha h⟩) fun h => ⟨_, .popCell ha h⟩
    · exact .inr hk
  | ret => exact (hcell s.sp).imp (fun h => ⟨_, .ret h⟩) fun h => ⟨_, .retCell h⟩
  | hlt => exact .inl ⟨_, .hlt⟩

/-- Everything a handler can do: complete, or enter the fault that it raises from the state at its start (R12, R227). -/
theorem exec_eq_next : exec i s = .next t ↔ Completes s i t ∨ ∃ k, Raises s i k ∧ t = s.takeFault k := by
  constructor
  · intro h
    rcases completes_or_raises i s with ⟨u, hu⟩ | ⟨k, hk⟩
    · obtain rfl : u = t := Host.Outcome.next.inj ((exec_of_completes hu).symm.trans h)
      exact .inl hu
    · exact .inr ⟨k, hk, Host.Outcome.next.inj (h.symm.trans (exec_of_raises hk))⟩
  · rintro (h | ⟨k, hk, rfl⟩)
    · exact exec_of_completes h
    · exact exec_of_raises hk

end

end Sys2Proof.Machine
end

section
/-! PROOFS. What a handler that completes can change, one lemma per item of the state (R26, R29, R33, R36, R52, R195);
from them the invariant of every step and the obligations about what each instruction leaves unchanged. -/

namespace Sys2Proof

/-- The "registers written" column of R26. -/
def Instr.registersWritten : Instr → List Nat
  | .add a _ | .mul a _ | .and a _ | .ldi a _ => [a.toNat]
  | .call _ | .ret | .push _ => [7]
  | .pop a => [a.toNat, 7]
  | .cmp _ _ | .jmp _ | .jeq _ | .jne _ | .st _ _ | .prn _ | .pra _ | .hlt => []

end Sys2Proof

namespace Sys2Proof.Machine

/-! ## Which registers and which cell (R26, R52) -/

/-- The instruction is one that stores, and this is the address it stores to (R52). -/
inductive StoresTo (s : State) : Instr → Nat → Prop
  | st {a b : Byte} (ha : a.toNat < 8) : StoresTo s (.st a b) s.regs[a.toNat].toNat
  | push {a : Byte} : StoresTo s (.push a) (s.sp - 1).toNat
  | call {a : Byte} : StoresTo s (.call a) (s.sp - 1).toNat

theorem byte_toNat_le (x : Byte) : x.toNat ≤ 255 := Nat.le_of_lt_succ x.isLt

namespace Completes

variable {i : Instr} {s t : State} (h : Completes s i t)
include h

/-- A register that the instruction does not write is as before (R26). -/
theorem regs_of_not_written {r : Nat} (hr : r < 8) (hi : r ∉ i.registersWritten) : t.regs[r] = s.regs[r] := by
  cases h with
  | add ha | mul ha | andBitwise _ ha | ldi ha =>
    exact s.regs_set_other _ _ ha r hr (List.ne_of_not_mem_cons hi)
  | call | ret | push => exact Vector.getElem_set_ne (by decide) hr (List.ne_of_not_mem_cons hi).symm
  | pop ha =>
    have hr7 := List.ne_of_not_mem_cons (List.not_mem_of_not_mem_cons hi)
    rw [Vector.getElem_set_ne _ hr hr7.symm, s.regs_set_other _ _ ha r hr (List.ne_of_not_mem_cons hi)]
  | _ => rfl

/-- Memory is as before, or it is after one write to a cell that exists, the one the instruction stores to (R52). -/
theorem mem_eq_or_write :
    t.mem = s.mem ∨ ∃ addr v, StoresTo s i addr ∧ addr < s.params.memSize ∧ t.mem = s.mem.write addr v := by
  cases h with
  | st ha hb hlt => exact .inr ⟨_, _, .st ha, hlt, rfl⟩
  | push ha hlt => exact .inr ⟨_, _, .push, hlt, rfl⟩
  | call ha hpc hlt => exact .inr ⟨_, _, .call, hlt, rfl⟩
  | _ => exact .inl rfl

/-- Only CMP writes the flags (R33). -/
theorem flags_eq (hi : ∀ a b, i ≠ .cmp a b) : t.flags = s.flags := by
  cases h with
  | cmp => exact absurd rfl (hi _ _)
  | _ => rfl

theorem fault_eq : t.fault = s.fault := by
  cases h <;> rfl

/-- Only PRN and PRA touch the output, and they append a register (R195). -/
theorem out_eq_or_append :
    t.out = s.out ∨ ∃ (kind : OutKind) (a : Byte) (ha : a.toNat < 8), (i = .prn a ∨ i = .pra a) ∧
      t.out = s.out ++ [{ kind := kind, value := s.regs[a.toNat] }] := by
  cases h with
  | prn ha => exact .inr ⟨_, _, ha, .inl rfl, rfl⟩
  | pra ha => exact .inr ⟨_, _, ha, .inr rfl, rfl⟩
  | _ => exact .inl rfl

/-- The Program Counter advances past the instruction, or a transfer leaves a byte in it, or HLT leaves it (R29, R155). -/
theorem pc_cases :
    (i.opcode ∉ [Opcode.jmp, .call, .ret, .hlt] ∧ t.pc = s.pc + 1 + i.opcode.operandCount) ∨
      (i.opcode ∈ [Opcode.jmp, .jeq, .jne, .call, .ret] ∧ t.pc ≤ 255) ∨ (i = .hlt ∧ t.pc = s.pc) := by
  cases h with
  | jmp | jeqTaken | jneTaken | call | ret => exact .inr (.inl ⟨by simp [Instr.opcode], byte_toNat_le _⟩)
  | hlt => exact .inr (.inr ⟨rfl, rfl⟩)
  | _ => exact .inl ⟨by simp [Instr.opcode], rfl⟩

end Completes

section
variable {i : Instr} {s t : State} (h : exec i s = .next t)
include h

/-- A handler either completes, or changes the latch only. -/
theorem completes_or_takeFault : Completes s i t ∨ ∃ k, t = s.takeFault k :=
  (exec_eq_next.1 h).imp_right fun ⟨k, _, ht⟩ => ⟨k, ht⟩

/-- A handler that leaves the latch empty completed. -/
theorem completes_of_fault_none (ht : t.fault = none) : Completes s i t := by
  rcases completes_or_takeFault h with hc | ⟨k, rfl⟩
  · exact hc
  · cases ht

/-- Completing or faulting, a handler leaves a register that its instruction does not write (R26). -/
theorem exec_regs_of_not_written {r : Nat} (hr : r < 8) (hi : r ∉ i.registersWritten) :
    t.regs[r] = s.regs[r] := by
  rcases completes_or_takeFault h with hc | ⟨k, rfl⟩
  · exact hc.regs_of_not_written hr hi
  · rfl

/-- Completing or faulting, a handler leaves every address that its instruction does not store to (R52). -/
theorem exec_read_of_not_storesTo {addr : Nat} (hi : ¬ StoresTo s i addr) : t.mem.read addr = s.mem.read addr := by
  rcases completes_or_takeFault h with hc | ⟨k, rfl⟩
  · rcases hc.mem_eq_or_write with hmem | ⟨a, v, hst, -, hmem⟩
    · rw [hmem]
    · rw [hmem, Memory.read_write_other _ _ fun ha => hi (by rwa [ha])]
  · rfl

end

/-! ## The invariant (R30, R37, R39, R50) -/

section
variable {i : Instr} {s t : State}

/-- Fault entry of a Running engine keeps the invariant: memory and `pc` stay, and the running flag is true. -/
theorem State.Inv.takeFault (hs : s.Inv) (hr : s.running = true) (k : FaultKind) : (s.takeFault k).Inv := by
  obtain ⟨hwf, hwithin, hp, hpc, -⟩ := hs
  exact ⟨hwf, hwithin, hp, hpc, fun _ => hr⟩

/-- An instruction that was fetched lies below `N`, so advancing past it leaves at most `N`. -/
theorem Completes.inv (h : Completes s i t) (hs : s.Inv) (hf : s.fault = none)
    (hlen : s.pc + i.opcode.operandCount < s.params.memSize) : t.Inv := by
  obtain ⟨hwf, hwithin, hp, hpc, -⟩ := hs
  have hparams : t.params = s.params := exec_params (exec_of_completes h)
  have hmem : t.mem.wf ∧ t.mem.Within s.params.memSize := by
    rcases h.mem_eq_or_write with hmem | ⟨addr, v, -, hlt, hmem⟩
    · rw [hmem]
      exact ⟨hwf, hwithin⟩
    · rw [hmem]
      exact ⟨Memory.write_wf hwf addr v, Memory.write_within hwithin hlt v⟩
  have hpc' : t.pc ≤ max 255 s.params.memSize := by
    rcases h.pc_cases with ⟨-, hadv⟩ | ⟨-, hbyte⟩ | ⟨-, hsame⟩
    · omega
    · omega
    · rwa [hsame]
  rw [State.Inv, hparams, h.fault_eq]
  exact ⟨hmem.1, hmem.2, hp, hpc', fun hne => absurd hf hne⟩

/-- Every step keeps the invariant. -/
theorem step_inv (hs : s.Inv) (h : step s = .next t) : t.Inv := by
  obtain ⟨hf, hr, ⟨i, hi, hexec⟩ | ⟨k, -, rfl⟩⟩ := step_cases s h
  · rcases completes_or_takeFault hexec with hc | ⟨k, rfl⟩
    · obtain ⟨-, hlen, -⟩ := s.fetch_eq_ok.1 hi
      exact hc.inv hs hf hlen
    · exact hs.takeFault hr k
  · exact hs.takeFault hr k

end

/-- Settles O3: a completed instruction was fetched from below `N`, and a fault changes the latch only. -/
theorem stepKeepsStateInvariant : Obligations.StepKeepsStateInvariant := by
  refine ⟨fun s t => step_inv, fun s hs hN => ?_⟩
  obtain ⟨-, -, -, hpc, -⟩ := hs
  rw [hN] at hpc ⊢
  omega

/-! ## The obligations about what is left unchanged -/

/-- Settles O18: a step that leaves a record is fault entry, and a handler keeps the latch or is fault entry. -/
theorem faultsArePrecise : Obligations.FaultsArePrecise := by
  refine ⟨fun s t r h ht => ?_, fun i s t h => ?_⟩
  · obtain ⟨k, rfl⟩ := eq_takeFault_of_step_fault h (ht ▸ Option.some_ne_none r)
    obtain rfl : ⟨k, s.pc⟩ = r := Option.some.inj ht
    exact ⟨rfl, rfl, State.engineState_eq_faulted _ |>.2 ⟨_, rfl⟩, step_of_fault _ rfl⟩
  · exact (completes_or_takeFault h).imp_left Completes.fault_eq

/-- Settles O38, by the "registers written" column of each form. -/
theorem registerFrame : Obligations.RegisterFrame := by
  refine ⟨fun i a b s t hi h r hr hne => ?_, fun i a s t hi h r hr => ?_, fun a s t h r hr hne => ?_,
    fun i a b s t hi h => Vector.ext fun r hr => ?_⟩
  · have hw : i.registersWritten = [a.toNat] := by
      simp only [List.mem_cons, List.not_mem_nil, or_false] at hi
      rcases hi with rfl | rfl | rfl | rfl <;> rfl
    exact exec_regs_of_not_written h hr (hw ▸ mt List.mem_singleton.1 hne)
  · have hw : i.registersWritten = [7] := by
      simp only [List.mem_cons, List.not_mem_nil, or_false] at hi
      rcases hi with rfl | rfl | rfl <;> rfl
    exact exec_regs_of_not_written h (by omega) (hw ▸ mt List.mem_singleton.1 hr.ne)
  · exact exec_regs_of_not_written h (by omega) (List.not_mem_cons_of_ne_of_not_mem hne (mt List.mem_singleton.1 hr.ne))
  · have hw : i.registersWritten = [] := by
      simp only [List.mem_cons, List.not_mem_nil, or_false] at hi
      rcases hi with rfl | rfl | rfl | rfl | rfl | rfl | rfl | rfl <;> rfl
    exact exec_regs_of_not_written h hr (hw ▸ List.not_mem_nil)

/-- Settles O39: of the handlers that complete only CMP's writes the flags, and fault entry writes none. -/
theorem flagsWrittenOnlyByCmp : Obligations.FlagsWrittenOnlyByCmp := by
  intro i s t hi h
  rcases completes_or_takeFault h with hc | ⟨k, rfl⟩
  · exact hc.flags_eq hi
  · rfl

/-- Settles O40: an instruction of another form stores to no address. -/
theorem memoryUnchangedByNonStores : Obligations.MemoryUnchangedByNonStores := by
  intro i s t hst hpush hcall h addr
  refine exec_read_of_not_storesTo h fun hstores => ?_
  cases hstores with
  | st => exact hst _ _ rfl
  | push => exact hpush _ rfl
  | call => exact hcall _ rfl

/-- Settles O41, by the address each of the three forms stores to; a form that leaves a record is fault entry. -/
theorem storesTouchOneCell : Obligations.StoresTouchOneCell := by
  refine ⟨fun a b s t addr h hne => ?_, fun i a s t addr hi h hne => ?_, fun i s t hf h ht => ?_⟩
  · refine exec_read_of_not_storesTo h fun hstores => ?_
    cases hstores with
    | st ha => exact hne _ (s.readReg_of_lt ha) rfl
  · refine exec_read_of_not_storesTo h fun hstores => ?_
    cases hstores with
    | st => simp at hi
    | push | call => exact hne rfl
  · rcases completes_or_takeFault h with hc | ⟨k, rfl⟩
    · exact absurd (hc.fault_eq.trans hf) ht
    · rfl

/-- Settles O43: only a completed PRN or PRA appends, and what a step leaves in the latch it leaves by fault entry. -/
theorem outputOnlyGrows : Obligations.OutputOnlyGrows := by
  refine ⟨fun i s t hprn hpra h => ?_, fun s t h => ?_, fun s t h ht => ?_⟩
  · rcases completes_or_takeFault h with hc | ⟨k, rfl⟩
    · rcases hc.out_eq_or_append with hout | ⟨-, a, -, hi, -⟩
      · exact hout
      · exact absurd hi (not_or.2 ⟨hprn a, hpra a⟩)
    · rfl
  · obtain ⟨-, -, ⟨i, -, hexec⟩ | ⟨k, -, rfl⟩⟩ := step_cases s h
    · rcases completes_or_takeFault hexec with hc | ⟨k, rfl⟩
      · exact hc.out_eq_or_append.imp_right fun ⟨kind, a, ha, _, hout⟩ => ⟨kind, a.toNat, ha, hout⟩
      · exact .inl rfl
    · exact .inl rfl
  · obtain ⟨k, rfl⟩ := eq_takeFault_of_step_fault h ht
    rfl

/-- Settles O44: each list of labels is met by one of the three ways the Program Counter can change, or two for the
branches. -/
theorem programCounterUpdates : Obligations.ProgramCounterUpdates := by
  have hseq : ∀ o ∈ [Opcode.add, .mul, .and, .cmp, .push, .pop, .ldi, .st, .prn, .pra],
      o ∉ [Opcode.jmp, .jeq, .jne, .call, .ret] ∧ o ≠ .hlt := by decide
  have hjump : ∀ o ∈ [Opcode.jmp, .call, .ret], o ∈ [Opcode.jmp, .call, .ret, .hlt] ∧ o ≠ .hlt := by decide
  have hbranch : ∀ o ∈ [Opcode.jeq, .jne], o.operandCount = 1 ∧ o ≠ .hlt := by decide
  refine ⟨fun i s t hi _ h ht => ?_, fun s t h => ?_, fun i s t hi _ h ht => ?_, fun i s t hi _ h ht => ?_⟩
  · obtain ⟨htransfer, hhlt⟩ := hseq _ hi
    rcases (completes_of_fault_none h ht).pc_cases with ⟨-, hpc⟩ | ⟨hmem, -⟩ | ⟨rfl, -⟩
    · exact hpc
    · exact absurd hmem htransfer
    · exact absurd rfl hhlt
  · rw [exec_hlt] at h
    cases h
    rfl
  · obtain ⟨htransfer, hhlt⟩ := hjump _ hi
    rcases (completes_of_fault_none h ht).pc_cases with ⟨hmem, -⟩ | ⟨-, hpc⟩ | ⟨rfl, -⟩
    · exact absurd htransfer hmem
    · exact hpc
    · exact absurd rfl hhlt
  · obtain ⟨hcount, hhlt⟩ := hbranch _ hi
    rcases (completes_of_fault_none h ht).pc_cases with ⟨-, hpc⟩ | ⟨-, hpc⟩ | ⟨rfl, -⟩
    · exact .inl (by rw [hpc, hcount])
    · exact .inr hpc
    · exact absurd rfl hhlt

end Sys2Proof.Machine
end

section
/-! PROOFS. What a handler can depend on (R23, R33, R36): two states that agree on all it reads complete alike or raise
alike, whatever they hold in the running flag, in flags that nothing reads and in registers that nothing names. -/

namespace Sys2Proof.Machine

variable {i : Instr} {s t : State}

/-! ## What decides which fatal error is raised -/

/-- The checks of a handler read the parameters, `pc`, the Stack Pointer, the registers its operands name and, in the
branches, FL.E. -/
theorem Raises.congr {s' : State} {k : FaultKind} (h : Raises s i k) (hparams : s'.params = s.params)
    (hpc : s'.pc = s.pc) (hsp : s'.sp = s.sp)
    (hE : i.opcode ∈ [Opcode.jeq, .jne] → s'.flags.equal = s.flags.equal)
    (hregs : ∀ a ∈ i.registerOperands, ∀ ha : a.toNat < 8, s'.regs[a.toNat] = s.regs[a.toNat]) : Raises s' i k := by
  cases h with
  | left hi ha => exact .left hi ha
  | right hi ha hb => exact .right hi ha hb
  | andLeft hm ha => exact .andLeft (hparams ▸ hm) ha
  | andRight hm ha hb => exact .andRight (hparams ▸ hm) ha hb
  | only hi ha => exact .only hi ha
  | jeq hEs ha => exact .jeq ((hE (.head _)).trans hEs) ha
  | jne hEs ha => exact .jne ((hE (.tail _ (.head _))).trans hEs) ha
  | callReturnAddress ha hpcs => exact hpc ▸ .callReturnAddress ha (by rwa [hpc])
  | callCell ha hpcs h => exact hsp ▸ .callCell ha (by rwa [hpc]) (by rwa [hparams, hsp])
  | pushCell ha h => exact hsp ▸ .pushCell ha (by rwa [hparams, hsp])
  | popCell ha h => exact hsp ▸ .popCell ha (by rwa [hparams, hsp])
  | retCell h => exact hsp ▸ .retCell (by rwa [hparams, hsp])
  | stCell ha hb h =>
    have hread := hregs _ (.head _) ha
    exact hread ▸ .stCell ha hb (by rwa [hparams, hread])

/-! ## The running flag (R36) -/

/-- No handler reads the running flag, and only HLT's writes it. -/
theorem Completes.withRunning (h : Completes s i t) (hi : i ≠ .hlt) (r : Bool) :
    Completes { s with running := r } i { t with running := r } := by
  cases h with
  | hlt => exact absurd rfl hi
  | _ => constructor <;> assumption

theorem exec_withRunning (hi : i ≠ .hlt) (h : exec i s = .next t) (r : Bool) :
    exec i { s with running := r } = .next { t with running := r } := by
  rcases exec_eq_next.1 h with hc | ⟨k, hk, rfl⟩
  · exact exec_of_completes (hc.withRunning hi r)
  · exact exec_of_raises (hk.congr rfl rfl rfl (fun _ => rfl) fun _ _ _ => rfl)

/-! ## The flags (R33) -/

/-- Only the branches read a flag, and it is FL.E. -/
theorem Completes.withFlags (h : Completes s i t) (f : Flags)
    (hE : i.opcode ∈ [Opcode.jeq, .jne] → f.equal = s.flags.equal) :
    ∃ g, Completes { s with flags := f } i { t with flags := g } := by
  cases h with
  | cmp ha hb => exact ⟨_, .cmp ha hb⟩
  | jeqTaken hEs ha => exact ⟨f, .jeqTaken ((hE (.head _)).trans hEs) ha⟩
  | jeqNotTaken hEs => exact ⟨f, .jeqNotTaken ((hE (.head _)).trans hEs)⟩
  | jneTaken hEs ha => exact ⟨f, .jneTaken ((hE (.tail _ (.head _))).trans hEs) ha⟩
  | jneNotTaken hEs => exact ⟨f, .jneNotTaken ((hE (.tail _ (.head _))).trans hEs)⟩
  | _ => exact ⟨f, by constructor <;> assumption⟩

theorem exec_withFlags (h : exec i s = .next t) (f : Flags)
    (hE : i.opcode ∈ [Opcode.jeq, .jne] → f.equal = s.flags.equal) :
    ∃ g, exec i { s with flags := f } = .next { t with flags := g } := by
  rcases exec_eq_next.1 h with hc | ⟨k, hk, rfl⟩
  · obtain ⟨g, hg⟩ := hc.withFlags f hE
    exact ⟨g, exec_of_completes hg⟩
  · exact ⟨f, exec_of_raises (hk.congr rfl rfl rfl hE fun _ _ _ => rfl)⟩

/-! ## A register that is not named (R23, R26) -/

/-- The next state may be written differently. -/
theorem Completes.of_eq {u : State} (h : Completes s i u) (hu : u = t) : Completes s i t := hu ▸ h

/-- Another value in a register that is neither named nor the Stack Pointer has no effect beyond being there: it is not
read, and the writes to other registers commute with putting it there. -/
theorem Completes.withReg {r : Nat} (h : Completes s i t) (hr : r < 7) (hi : ∀ a ∈ i.registerOperands, a.toNat ≠ r)
    (v : Byte) :
    Completes { s with regs := s.regs.set r v (by omega) } i { t with regs := t.regs.set r v (by omega) } := by
  have hread : ∀ (regs : Vector Byte 8) (j : Nat) (hj : j < 8), j ≠ r → (regs.set r v (by omega))[j] = regs[j] :=
    fun _ _ hj hne => Vector.getElem_set_ne _ hj hne.symm
  have hwrite : ∀ (regs : Vector Byte 8) (j : Nat) (hj : j < 8) (x : Byte), j ≠ r →
      (regs.set r v (by omega)).set j x = (regs.set j x).set r v (by omega) :=
    fun _ _ _ x hne => Vector.set_comm v x hne.symm
  have h7 : 7 ≠ r := hr.ne'
  have hsp : ({ s with regs := s.regs.set r v (by omega) } : State).sp = s.sp := hread _ 7 _ h7
  -- A `by` around a hypothesis delays it until the goal has fixed which state it is used for.
  cases h with
  | @add a b ha hb =>
    exact .of_eq (.add ha hb) (by simp [hread, hwrite, hi a (.head _), hi b (.tail _ (.head _))])
  | @mul a b ha hb =>
    exact .of_eq (.mul ha hb) (by simp [hread, hwrite, hi a (.head _), hi b (.tail _ (.head _))])
  | andNoop hm => exact .andNoop hm
  | @andBitwise a b hm ha hb =>
    exact .of_eq (.andBitwise (by exact hm) ha hb) (by simp [hread, hwrite, hi a (.head _), hi b (.tail _ (.head _))])
  | @cmp a b ha hb => exact .of_eq (.cmp ha hb) (by simp [hread, hi a (.head _), hi b (.tail _ (.head _))])
  | @jmp a ha => exact .of_eq (.jmp ha) (by simp [hread, hi a (.head _)])
  | @jeqTaken a hE ha => exact .of_eq (.jeqTaken (by exact hE) ha) (by simp [hread, hi a (.head _)])
  | jeqNotTaken hE => exact .jeqNotTaken hE
  | @jneTaken a hE ha => exact .of_eq (.jneTaken (by exact hE) ha) (by simp [hread, hi a (.head _)])
  | jneNotTaken hE => exact .jneNotTaken hE
  | @call a ha hpc hlt =>
    exact .of_eq (.call ha hpc (by rwa [hsp])) (by simp [hsp, hread, hwrite, h7, hi a (.head _)])
  | ret hlt => exact .of_eq (.ret (by rwa [hsp])) (by simp [hsp, hwrite, h7])
  | @push a ha hlt =>
    exact .of_eq (.push ha (by rwa [hsp])) (by simp [hsp, hread, hwrite, h7, hi a (.head _)])
  | @pop a ha hlt =>
    exact .of_eq (.pop ha (by rwa [hsp])) (by simp [hsp, hread, hwrite, h7, hi a (.head _)])
  | @ldi a imm ha => exact .of_eq (.ldi ha) (by simp [hwrite, hi a (.head _)])
  | @st a b ha hb hlt =>
    have hra := hread s.regs a.toNat ha (hi a (.head _))
    exact .of_eq (.st ha hb (by rwa [hra])) (by simp [hread, hi a (.head _), hi b (.tail _ (.head _))])
  | @prn a ha => exact .of_eq (.prn ha) (by simp [hread, hi a (.head _)])
  | @pra a ha => exact .of_eq (.pra ha) (by simp [hread, hi a (.head _)])
  | hlt => exact .hlt

theorem exec_withReg {r : Nat} (h : exec i s = .next t) (hr : r < 7) (hi : ∀ a ∈ i.registerOperands, a.toNat ≠ r)
    (v : Byte) : exec i { s with regs := s.regs.set r v (by omega) } =
      .next { t with regs := t.regs.set r v (by omega) } := by
  rcases exec_eq_next.1 h with hc | ⟨k, hk, rfl⟩
  · exact exec_of_completes (hc.withReg hr hi v)
  · exact exec_of_raises (hk.congr rfl rfl (Vector.getElem_set_ne (by omega) _ hr.ne) (fun _ => rfl)
      fun a hmem ha => Vector.getElem_set_ne (by omega) ha (hi a hmem).symm)

/-- An instruction writes no register but those it names and the Stack Pointer (R26). -/
theorem not_mem_registersWritten {r : Nat} (hr : r < 7) (hi : ∀ a ∈ i.registerOperands, a.toNat ≠ r) :
    r ∉ i.registersWritten := by
  have hnot : ∀ a : Byte, a ∈ i.registerOperands → r ∉ [a.toNat] :=
    fun a hmem => mt List.mem_singleton.1 (hi a hmem).symm
  cases i with
  | add | mul | and | ldi => exact hnot _ (.head _)
  | call | ret | push => exact mt List.mem_singleton.1 hr.ne
  | pop => exact List.not_mem_cons_of_ne_of_not_mem (hi _ (.head _)).symm (mt List.mem_singleton.1 hr.ne)
  | _ => exact List.not_mem_nil

/-! ## The obligations -/

/-- Settles O42: HLT is the one handler that does not keep the flag, and a Load writes memory only. -/
theorem runningWrittenOnlyByHltAndRun : Obligations.RunningWrittenOnlyByHltAndRun := by
  refine ⟨fun i s t hi h => ?_, fun bytes s t h => ?_, fun i s t r hi h => exec_withRunning hi h r⟩
  · rcases exec_sameEngine_or_fault hi h with ⟨hr, -⟩ | ⟨k, rfl⟩
    · exact hr
    · rfl
  · obtain ⟨-, -, rfl⟩ := hostLoad_eq_some h
    rfl

/-- Settles O45: for an instruction that is no branch the condition on FL.E is void. -/
theorem onlyEqualFlagIsRead : Obligations.OnlyEqualFlagIsRead := by
  refine ⟨fun i s t f hjeq hjne h => exec_withFlags h f fun hop => ?_, fun i s t f hf h => exec_withFlags h f fun _ => hf⟩
  cases i with
  | jeq a => exact absurd rfl (hjeq a)
  | jne a => exact absurd rfl (hjne a)
  | _ => simp [Instr.opcode] at hop

/-- Settles O46: an unnamed register 0 to 6 is in no "registers written" column, and nothing reads it. -/
theorem unnamedRegistersAreInert : Obligations.UnnamedRegistersAreInert := fun _ _ _ _ hr v hi h =>
  ⟨exec_regs_of_not_written h (by omega) (not_mem_registersWritten hr hi), exec_withReg h hr hi v⟩

end Sys2Proof.Machine
end

section
/-! PROOFS. What a fetch depends on (R65), which fatal errors an operand or an address can cause (R59, R224), and the laws
of two instructions (R157, R158, R178). -/

namespace Sys2Proof

/-! ## The decoder depends on three bytes -/

/-- Reading consecutive bytes depends on these bytes only. -/
theorem readBytes_congr {ε : Type} {read read' : Nat → Except ε Byte} {start k : Nat}
    (h : ∀ j, j < k → read (start + j) = read' (start + j)) : readBytes read start k = readBytes read' start k := by
  induction k generalizing start with
  | zero => rfl
  | succ k ih =>
    have hrest : readBytes read (start + 1) k = readBytes read' (start + 1) k := ih fun j hj => by
      rw [show start + 1 + j = start + (j + 1) by omega]
      exact h (j + 1) (by omega)
    rw [readBytes, readBytes, hrest, show read start = read' start from h 0 (by omega)]

theorem Opcode.operandCount_le_two (o : Opcode) : o.operandCount ≤ 2 := by
  cases o <;> decide

/-- Decoding depends on the opcode byte and at most two bytes after it (R80). -/
theorem decodeFrom_congr {ε : Type} {m : OpcodeMap} {read read' : Nat → Except ε Byte} {unknown : Byte → ε}
    (h : ∀ j, j ≤ 2 → read j = read' j) : decodeFrom m read unknown = decodeFrom m read' unknown := by
  have hoperands : ∀ o : Opcode, readBytes read 1 o.operandCount = readBytes read' 1 o.operandCount := fun o =>
    readBytes_congr fun j hj => h (1 + j) (by have := o.operandCount_le_two; omega)
  simp only [decodeFrom, h 0 (by omega), hoperands]

end Sys2Proof

namespace Sys2Proof.Machine

section
variable {s t : State} {a : Byte}

/-! ## Reading memory through a state (R53, R65) -/

theorem State.memRead_congr {n : Nat} (hparams : s.params = t.params) (h : s.mem.read n = t.mem.read n) :
    s.memRead n = t.memRead n := by
  rw [State.memRead, State.memRead, hparams, h]

/-- After a store to a cell that exists, that cell reads as the byte stored and every other address as before. -/
theorem State.memRead_of_write {addr : Nat} {v : Byte} (hparams : t.params = s.params)
    (hmem : t.mem = s.mem.write addr v) (h : addr < s.params.memSize) (n : Nat) :
    t.memRead n = if n = addr then .ok v else s.memRead n := by
  split
  · next hn =>
    rw [t.memRead_of_lt (by rw [hparams, hn]; exact h), hmem, hn, Memory.read_write_same]
  · next hn => exact State.memRead_congr hparams (by rw [hmem, Memory.read_write_other _ _ hn])

/-- A fetch depends on `pc`, the parameters and the three cells from `pc` upward (R65). -/
theorem State.fetch_congr (hpc : s.pc = t.pc) (hparams : s.params = t.params)
    (hmem : ∀ j, j ≤ 2 → s.mem.read (s.pc + j) = t.mem.read (s.pc + j)) : s.fetch = t.fetch := by
  rw [State.fetch, State.fetch, ← hparams, ← hpc]
  exact decodeFrom_congr fun j hj => State.memRead_congr hparams (hmem j hj)

/-! ## A register below the Stack Pointer, and the Stack Pointer's own counting -/

/-- Moving the Stack Pointer changes no register 0 to 6. -/
theorem State.regs_set_seven_get (ha : a.toNat < 7) (v : Byte) : (s.regs.set 7 v)[a.toNat] = s.regs[a.toNat] :=
  Vector.getElem_set_ne _ _ ha.ne'

/-- PUSH of a register 0 to 6 stores the register as it was (R173). -/
theorem exec_push_of_lt_seven (ha : a.toNat < 7) (h : (s.sp - 1).toNat < s.params.memSize) :
    exec (.push a) s = .next { s with
      regs := s.regs.set 7 (s.sp - 1)
      mem := s.mem.write (s.sp - 1).toNat s.regs[a.toNat]
      pc := s.pc + 2 } := by
  rw [exec_push_of_lt (by omega) h, State.regs_set_seven_get ha]

/-- POP into a register 0 to 6 increments the Stack Pointer as it was (R174). -/
theorem exec_pop_of_lt_seven (ha : a.toNat < 7) (h : s.sp.toNat < s.params.memSize) :
    exec (.pop a) s = .next { s with
      regs := (s.regs.set a.toNat (s.mem.read s.sp.toNat)).set 7 (s.sp + 1)
      pc := s.pc + 2 } := by
  have hsp : (s.regs.set a.toNat (s.mem.read s.sp.toNat))[7] = s.sp := Vector.getElem_set_ne _ _ ha.ne
  rw [exec_pop_of_lt (by omega) h, hsp]

/-- A write between moving the Stack Pointer and moving it back is a write alone. -/
theorem State.regs_set_between_sp (hb : a.toNat < 7) (q x : Byte) :
    ((s.regs.set 7 q).set a.toNat x).set 7 s.sp = s.regs.set a.toNat x := by
  rw [Vector.set_comm q x hb.ne', Vector.set_set, Vector.set_comm x s.sp hb.ne, State.sp, Vector.set_getElem_self]

/-- What a PUSH and then a POP come to: `x[b] <- x[a]`, with the byte left in the cell (R178). -/
theorem exec_push_then_pop {b : Byte} (ha : a.toNat < 7) (hb : b.toNat < 7)
    (h : (s.sp - 1).toNat < s.params.memSize) :
    ∃ t, exec (.push a) s = .next t ∧ exec (.pop b) t = .next { s with
      regs := s.regs.set b.toNat s.regs[a.toNat]
      mem := s.mem.write (s.sp - 1).toNat s.regs[a.toNat]
      pc := s.pc + 4 } := by
  refine ⟨_, exec_push_of_lt_seven ha h, ?_⟩
  have hsp : ∀ mem pc, ({ s with regs := s.regs.set 7 (s.sp - 1), mem := mem, pc := pc } : State).sp = s.sp - 1 :=
    fun _ _ => s.setSp_sp _
  rw [exec_pop_of_lt_seven hb (by rwa [hsp]), hsp, Memory.read_write_same, BitVec.sub_add_cancel,
    State.regs_set_between_sp hb]

end

/-! ## The obligations about single instructions -/

/-- Settles O47: each of the three forms writes one cell, and the fetch reads memory at the time of the step. -/
theorem storeSeenByNextFetch : Obligations.StoreSeenByNextFetch := by
  refine ⟨fun a b s ha hb h => ⟨_, exec_st_of_address_lt ha hb h, State.memRead_of_write rfl rfl h⟩,
    fun a s ha h => ⟨_, exec_push_of_lt_seven ha h, ?_⟩,
    fun a s ha hpc h => ⟨_, exec_call_of_lt ha hpc h, State.memRead_of_write rfl rfl h⟩,
    fun s t => State.fetch_congr⟩
  rw [s.readReg_of_lt (by omega)]
  exact State.memRead_of_write rfl rfl h

/-- Settles O48: every address but CALL's return address is a byte, and so below 256. -/
theorem dataAddressesAlwaysValidAt256 : Obligations.DataAddressesAlwaysValidAt256 := by
  intro i s t address pc hN hs h ht
  have hbyte : ∀ x : Byte, ¬ s.params.memSize ≤ x.toNat := fun x => by have := x.isLt; omega
  rcases exec_eq_next.1 h with hc | ⟨k, hk, rfl⟩
  · rw [hc.fault_eq, hs] at ht
    cases ht
  · cases ht
    cases hk with
    | callReturnAddress ha hpc => exact ⟨⟨_, rfl⟩, rfl, hpc⟩
    | callCell _ _ hge | pushCell _ hge | popCell _ hge | retCell hge | stCell _ _ hge => exact absurd hge (hbyte _)

/-- Settles O49: `CanRaise` allows `InvalidRegister` of an operand of 8 or more only, and a well-formed instruction has
none. -/
theorem invalidRegisterNamesAnOperand : Obligations.InvalidRegisterNamesAnOperand := by
  have hraised : ∀ (i : Instr) (s t : State) (x : Byte) (pc : Nat), s.fault = none → exec i s = .next t →
      t.fault = some { kind := .invalidRegister x, pc := pc } → x ∈ i.registerOperands ∧ 8 ≤ x.toNat :=
    fun _ _ _ _ _ hs h ht => canRaise_of_exec_fault hs h ht
  refine ⟨hraised, fun i s t x pc hwf hs h ht => ?_⟩
  obtain ⟨hmem, hge⟩ := hraised i s t x pc hs h ht
  exact absurd (of_decide_eq_true (List.all_eq_true.1 hwf x hmem)) (Nat.not_lt.2 hge)

/-! ## The obligations about two instructions -/

/-- Settles O50: the CALL that completed had its cell and a return address of one byte, which RET pops. -/
theorem callReturnLaw : Obligations.CallReturnLaw := by
  intro a s t u hs h ht hparams hsp hmem
  cases completes_of_fault_none h ht with
  | call ha hpc hlt =>
    refine ⟨_, exec_ret_of_lt (by rwa [hparams, hsp]), ?_, ?_, rfl⟩
    · rw [State.setSp_pc, State.jump_pc, hsp, hmem, Memory.read_write_same, BitVec.toNat_ofNat,
        Nat.mod_eq_of_lt (by omega)]
    · rw [State.setSp_sp, hsp, BitVec.sub_add_cancel]

/-- Settles O51: between them a PUSH and a POP copy one register to another and leave the byte in the cell. -/
theorem pushPopLaw : Obligations.PushPopLaw := by
  intro a b s ha hb h
  obtain ⟨t, hpush, hpop⟩ := exec_push_then_pop ha hb h
  refine ⟨t, _, hpush, hpop, s.regs_set_same b _ (by omega), ?_, fun r hr hne => ?_, ?_, fun addr hne => ?_, rfl⟩
  · exact s.regs_set_other b _ (by omega) 7 (by decide) hb.ne'
  · exact s.regs_set_other b _ (by omega) r hr hne
  · exact Memory.read_write_same _ _ _
  · exact Memory.read_write_other _ _ hne

/-- Settles O52: CMP's FL.E is the equality of the two registers, and each branch reads FL.E only. -/
theorem compareBranchLaw : Obligations.CompareBranchLaw := by
  intro a b r s t u ha hb hr h hE
  have hflag : u.flags.equal = true ↔ s.regs[a.toNat] = s.regs[b.toNat] := by
    rw [exec_cmp_of_lt ha hb] at h
    cases h
    rw [hE]
    exact compareFlags_equal _ _
  by_cases heq : s.regs[a.toNat] = s.regs[b.toNat]
  · have hu := hflag.2 heq
    rw [if_pos heq, if_pos heq]
    exact ⟨(exec_jeq_of_equal hu).trans (exec_jmp_of_lt hr), exec_jne_of_equal hu⟩
  · have hu : u.flags.equal = false := Bool.eq_false_iff.2 (mt hflag.1 heq)
    rw [if_neg heq, if_neg heq]
    exact ⟨exec_jeq_of_not_equal hu, (exec_jne_of_not_equal hu).trans (exec_jmp_of_lt hr)⟩

end Sys2Proof.Machine
end
